-- ==== Sys2Proof/Word.lean ====
section
/-! DEFINITION. The bit-vector types of the ports (spec 10_state.md R25, R26, R30; 30_encoding.md R70, R78). -/

namespace Sys2Proof

/-- One byte of a varint, R70. -/
abbrev Byte := BitVec 8

/-- A command word `cmd[6:0]`, R78. -/
abbrev CmdWord := BitVec 7

/-- A varint value, `u64` or `i64` (R7). -/
abbrev Value := BitVec 64

/-- The operand and result buses `opa` and `result`, R30. -/
abbrev Wide := BitVec 128

/-- A ten-lane byte bus, R50. -/
abbrev Bus := BitVec 80

/-- A length or count port: 4 bits, holding 0 to 10 (R7). -/
abbrev Count := BitVec 4

end Sys2Proof
end

