-- ==== Sys2Proof/Config.lean ====
section
/-! DEFINITION. The implementation parameters of spec 00_scope.md R7: the hardwired constants, the zig-zag widths, and the OPEN latency. -/

namespace Sys2Proof

/-- The five zig-zag widths N (R7, R80). Other widths are not in the source (R6; 93_implementation_defined.md I12), so no term names one. -/
inductive ZzWidth where
  | w8 | w16 | w32 | w64 | w128
deriving DecidableEq, Repr

/-- N in bits. -/
def ZzWidth.bits : ZzWidth → Nat
  | .w8 => 8
  | .w16 => 16
  | .w32 => 32
  | .w64 => 64
  | .w128 => 128

/-- `MAX_VARINT_LEN_U16`: a 4-bit tie-off, 0b0011 (R27). No write changes it. -/
def Config.maxVarintLenU16 : Count := 0b0011#4

/-- `MAX_VARINT_LEN_U32`: a 4-bit tie-off, 0b0101 (R27). -/
def Config.maxVarintLenU32 : Count := 0b0101#4

/-- `MAX_VARINT_LEN_U64`: a 4-bit tie-off, 0b1010 (R27). The decoder's byte limit (R135). -/
def Config.maxVarintLenU64 : Count := 0b1010#4

/-- `LATENCY`, OPEN (R7, R193; decision D20): no rule reads its value, and it has none here. Log entry 12. -/
opaque Config.latency : Nat

end Sys2Proof
end

