-- ==== Sys2Proof/Syntax.lean ====
section
/-! DEFINITION. The 14 operations of spec/opcode_table.json, one constructor per row (30_encoding.md R81). A command word has no operand field: operands come from ports (R82). -/

namespace Sys2Proof

/-- The operations of `vz_core`, in the order of R81. -/
inductive Instr where
  /-- `put_u64`, R130 -/
  | putU64
  /-- `put_i64`, R146 -/
  | putI64
  /-- `get_u64`, R135 -/
  | getU64
  /-- `get_i64`, R147 -/
  | getI64
  /-- `zz_enc.8`, R104 -/
  | zzEnc8
  /-- `zz_enc.16`, R105 -/
  | zzEnc16
  /-- `zz_enc.32`, R106 -/
  | zzEnc32
  /-- `zz_enc.64`, R107 -/
  | zzEnc64
  /-- `zz_enc.128`, R108 -/
  | zzEnc128
  /-- `zz_dec.8`, R109 -/
  | zzDec8
  /-- `zz_dec.16`, R110 -/
  | zzDec16
  /-- `zz_dec.32`, R111 -/
  | zzDec32
  /-- `zz_dec.64`, R112 -/
  | zzDec64
  /-- `zz_dec.128`, R113 -/
  | zzDec128
deriving DecidableEq, Repr

end Sys2Proof
end

