-- ==== Sys2Proof/Decode.lean ====
section
/-! DEFINITION. The command word of spec 30_encoding.md R78 to R83: the decoder by fields, total on all 128 words, then the encoder by the table of R81. -/

namespace Sys2Proof

/-- Field `op`, bits 3:0 (R78). -/
def opField (w : CmdWord) : BitVec 4 := w.extractLsb' 0 4

/-- Field `zw`, bits 6:4 (R78). -/
def zwField (w : CmdWord) : BitVec 3 := w.extractLsb' 4 3

/-- Why a word is reserved: the three lines of R83. -/
inductive ReservedReason where
  /-- `op` in 0x6 to 0xF -/
  | reservedOp
  /-- `op` in 0x0 to 0x3 and `zw` not 0b000 -/
  | widthOnVarint
  /-- `op` in 0x4 to 0x5 and `zw` in 0b101 to 0b111 -/
  | reservedWidth
deriving DecidableEq, Repr

/-- What a command word stands for. -/
inductive Decoded where
  | instr (i : Instr)
  | reserved (why : ReservedReason)
deriving DecidableEq, Repr

/-- The `zw` values of R80; 0b101 to 0b111 are reserved. -/
def zwWidth (zw : BitVec 3) : Option ZzWidth :=
  match zw.toNat with
  | 0 => some .w8
  | 1 => some .w16
  | 2 => some .w32
  | 3 => some .w64
  | 4 => some .w128
  | _ => none

/-- `zz_enc.N` by width. -/
def zzEncOf : ZzWidth → Instr
  | .w8 => .zzEnc8
  | .w16 => .zzEnc16
  | .w32 => .zzEnc32
  | .w64 => .zzEnc64
  | .w128 => .zzEnc128

/-- `zz_dec.N` by width. -/
def zzDecOf : ZzWidth → Instr
  | .w8 => .zzDec8
  | .w16 => .zzDec16
  | .w32 => .zzDec32
  | .w64 => .zzDec64
  | .w128 => .zzDec128

/-- A varint command wants `zw` = 0b000 (R78). -/
def decodeVarint (i : Instr) (zw : BitVec 3) : Decoded :=
  if zw = 0b000#3 then .instr i else .reserved .widthOnVarint

/-- A zig-zag command takes its width from `zw` (R80). -/
def decodeZigzag (f : ZzWidth → Instr) (zw : BitVec 3) : Decoded :=
  match zwWidth zw with
  | some w => .instr (f w)
  | none => .reserved .reservedWidth

/-- The decoder: R79 for `op`, R80 for `zw`, R83 for what is reserved. -/
def decode (w : CmdWord) : Decoded :=
  match (opField w).toNat with
  | 0 => decodeVarint .putU64 (zwField w)
  | 1 => decodeVarint .putI64 (zwField w)
  | 2 => decodeVarint .getU64 (zwField w)
  | 3 => decodeVarint .getI64 (zwField w)
  | 4 => decodeZigzag zzEncOf (zwField w)
  | 5 => decodeZigzag zzDecOf (zwField w)
  | _ => .reserved .reservedOp

/-- The encoder: the words of the table in R81, bit 6 first. -/
def encode : Instr → CmdWord
  | .putU64 => 0b0000000#7
  | .putI64 => 0b0000001#7
  | .getU64 => 0b0000010#7
  | .getI64 => 0b0000011#7
  | .zzEnc8 => 0b0000100#7
  | .zzEnc16 => 0b0010100#7
  | .zzEnc32 => 0b0100100#7
  | .zzEnc64 => 0b0110100#7
  | .zzEnc128 => 0b1000100#7
  | .zzDec8 => 0b0000101#7
  | .zzDec16 => 0b0010101#7
  | .zzDec32 => 0b0100101#7
  | .zzDec64 => 0b0110101#7
  | .zzDec128 => 0b1000101#7

/-- The command word that the number `w` stands for; a number with a bit above bit 6 is no command word (log entry 16). -/
def cmdOfNat (w : Nat) : Option CmdWord :=
  if w < 2 ^ 7 then some (BitVec.ofNat 7 w) else none

/-- The instruction read from a table word. Every row is one 7-bit word, so the bit count carries nothing more (log entry 16). -/
def decodeTableWord (_nbits w : Nat) : Option Instr :=
  match cmdOfNat w with
  | none => none
  | some c =>
    match decode c with
    | .instr i => some i
    | .reserved _ => none

end Sys2Proof
end

