-- ==== Sys2Proof/Machine/Program.lean ====
section
/-! DEFINITION. What the host issues: the statements of spec 30_encoding.md R86, and the port values that an operation of 00_scope.md R12 takes, given directly. A port value is `none` when the host leaves at least one of its bits undriven (10_state.md R36; log entry 1). -/

namespace Sys2Proof.Machine

/-- The operand of a `vz_core` statement. -/
inductive Operand where
  /-- `put_u64 <v>`, `put_i64 <v>`, `zz_enc.N <x>`, `zz_dec.N <u>` (R86) -/
  | literal (v : Int)
  /-- `get_u64 @<off>`, `get_i64 @<off>` (R86, R58) -/
  | buffer (off : Nat)
  /-- `get_u64 [b0, ..., bk]`, `get_i64 [b0, ..., bk]` (R86) -/
  | bytes (data : List Byte)
  /-- raw port values: `opa`, `in_bytes` and `in_avail` themselves (R12, R30). DESIGN CHOICE: on `vz_core` this too is a host-level operation, so a put given so appends (log entry 18) -/
  | ports (opa : Option Wide) (inBytes : Option Bus) (inAvail : Option Count)
deriving DecidableEq, Repr

/-- One operation, presented to `vz_core` or to a stand-alone unit (R15). -/
inductive Call where
  /-- a command word on `cmd`, with its operand (R30, R86) -/
  | command (cmd : Option CmdWord) (operand : Operand)
  /-- a stand-alone `varint_encoder` (R25) -/
  | encoder (value : Option Value)
  /-- a stand-alone `varint_decoder` (R26) -/
  | decoder (bytes : Option Bus) (avail : Option Count)
  /-- a stand-alone `zigzag_encoder` at width `w` (R28; decision D4: N is an argument) -/
  | zigzagEncoder (w : ZzWidth) (x : Option (BitVec w.bits))
  /-- a stand-alone `zigzag_decoder` at width `w` (R29; decision D4) -/
  | zigzagDecoder (w : ZzWidth) (u : Option (BitVec w.bits))
deriving DecidableEq, Repr

/-- One statement of the host's program. `settled` says that the host holds every input stable and samples only once the outputs have settled (70_reset_and_hazards.md R193; log entry 12). -/
structure Statement where
  call : Call
  settled : Bool
deriving DecidableEq, Repr

end Sys2Proof.Machine
end

