-- ==== Sys2Proof/Machine/State.lean ====
section
/-! DEFINITION. The state of the machine as plain data: the ports of `vz_core` and of the stand-alone units, the host's buffer and the host's program (spec 10_state.md R20 to R36; 20_memory.md R55; 30_encoding.md R86; 70_reset_and_hazards.md R190). The block itself stores nothing (R20): an output port holds what it drives for the inputs now on the input ports (R31, R35). -/

namespace Sys2Proof.Machine

/-- The 2-bit status output, R34. Its code is `Status.code` in Machine/Flags.lean. -/
inductive Status where
  | ok | shortOfData | overflow | illegal
deriving DecidableEq, Repr

/-- The output ports of `vz_core`, R30. -/
structure CoreOut where
  status : Status
  result : Wide
  outBytes : Bus
  count : Count
deriving DecidableEq, Repr

/-- The output ports of a `varint_encoder`, R25. -/
structure EncOut where
  bytes : Bus
  len : Count
deriving DecidableEq, Repr

/-- The output ports of a `varint_decoder`, R26. -/
structure DecOut where
  status : Status
  value : Value
  count : Count
deriving DecidableEq, Repr

/-- One port of each of the five instances of a stand-alone zig-zag unit, R28 and R29 (log entry 10). -/
structure ZzPorts where
  n8 : Option (BitVec 8)
  n16 : Option (BitVec 16)
  n32 : Option (BitVec 32)
  n64 : Option (BitVec 64)
  n128 : Option (BitVec 128)
deriving DecidableEq, Repr

/-- No instance's port carries a value. -/
def ZzPorts.undriven : ZzPorts := ⟨none, none, none, none, none⟩

/-- The ports of the stand-alone units (R25, R26, R28, R29). -/
structure Units where
  encValue : Option Value
  encOut : Option EncOut
  decBytes : Option Bus
  decAvail : Option Count
  decOut : Option DecOut
  zzeIn : ZzPorts
  zzeOut : ZzPorts
  zzdIn : ZzPorts
  zzdOut : ZzPorts
deriving DecidableEq, Repr

/-- No stand-alone unit has been presented an input. -/
def Units.undriven : Units where
  encValue := none
  encOut := none
  decBytes := none
  decAvail := none
  decOut := none
  zzeIn := ZzPorts.undriven
  zzeOut := ZzPorts.undriven
  zzdIn := ZzPorts.undriven
  zzdOut := ZzPorts.undriven

/-- The host's byte buffer (R55) as (index, byte) cells. Its canonical form is `Memory.wf` in Machine/Ops.lean. -/
abbrev Memory := List Host.Cell

/-- The state. An input port is `none` while the host leaves a bit of it undriven (R36; log entry 1); the output ports are `none` while that is so of the inputs, since they then carry no meaning (R191; log entry 2). -/
structure State where
  /-- `cmd`, R30 -/
  cmd : Option CmdWord
  /-- `opa`, R30 -/
  opa : Option Wide
  /-- `in_bytes`, R30 -/
  inBytes : Option Bus
  /-- `in_avail`, R30 -/
  inAvail : Option Count
  /-- `status`, `result`, `out_bytes`, `count`, R30 -/
  coreOut : Option CoreOut
  /-- the stand-alone units' ports -/
  units : Units
  /-- the host's byte buffer, R55 -/
  buf : Memory
  /-- the most bytes the host can let `buf` grow to; `none`: no bound (R57; log entry 3) -/
  bufLimit : Option Nat
  /-- the statements the host has still to issue, the next one first (R86; log entry 4) -/
  program : List Statement
deriving DecidableEq, Repr

/-- Why the machine stops with a fault. -/
inductive Fault where
  /-- A stand-alone `varint_decoder` drives status code 0b11, which it never does (R34): the hardware is not this spec's (93_implementation_defined.md I3). Raised by `execDecoder`. Safe; no state reaches it. -/
  | illegalFromDecoder
deriving DecidableEq, Repr

/-- Why an operation has no meaning. -/
inductive Refusal where
  /-- An instruction without a meaning: a refused arm of `exec`. Safe; no arm raises it. -/
  | notModelled (mnemonic : String)
  /-- The host has no statement to issue: there is no operation, so no step. Raised by `step`. Safe (log entry 4). -/
  | noStatement
  /-- An input bit the host has not driven (R36, R191; 93_implementation_defined.md I7). Raised by every meaning, every stand-alone unit, and `issueCommand`. Safe. -/
  | undrivenInput
  /-- A reserved command word (R83, R176; 93_implementation_defined.md I2). Raised by `issueCommand`. Safe. -/
  | reservedCommand (cmd : CmdWord) (why : ReservedReason)
  /-- A statement R86 does not have: an operand form that the command does not take, or a literal outside its type. Raised by `present`. Safe (log entry 8). -/
  | illFormedStatement
  /-- `get @off` with `off` beyond the end of the buffer (R58; 93_implementation_defined.md I10). Raised by `present`. Safe. -/
  | offsetBeyondBuffer
  /-- The buffer cannot grow by the encoded bytes (R57; 93_implementation_defined.md I9). Raised by `execPutU64` and `execPutI64`. Safe (log entry 7). -/
  | bufferCannotGrow
  /-- Outputs sampled before they settle, or while inputs change (R193; 93_implementation_defined.md I8). Raised by `step`. Safe (log entry 12). -/
  | sampledUnsettled
deriving DecidableEq, Repr

/-- After power-up (R190, R191): nothing is stored, no input is driven, and no output carries a meaning. The buffer, its bound and the program are the host's choice (R190; log entries 3 and 4). -/
def State.reset : State where
  cmd := none
  opa := none
  inBytes := none
  inAvail := none
  coreOut := none
  units := Units.undriven
  buf := []
  bufLimit := none
  program := []

end Sys2Proof.Machine
end

