-- ==== Sys2Proof/Machine/Flags.lean ====
section
/-! DEFINITION. The block has no flags register and no condition codes (spec 10_state.md R24). It has two bit-level indicators, neither stored: the continuation bit of a varint byte (30_encoding.md R70) and the status code (10_state.md R34). -/

namespace Sys2Proof.Machine

/-- The continuation bit `C`, bit 7 of a varint byte: more bytes follow (R70). -/
def continuation (b : Byte) : Bool := b.getLsbD 7

/-- The payload `P`, bits 6:0 of a varint byte (R70). -/
def payload (b : Byte) : BitVec 7 := b.extractLsb' 0 7

/-- A varint byte that is not the last: `0x80 | zext_8(p)` (R130). -/
def continuedByte (p : BitVec 7) : Byte := 0x80#8 ||| p.setWidth 8

/-- The terminal varint byte: `zext_8(p)`, bit 7 clear (R130). -/
def terminalByte (p : BitVec 7) : Byte := p.setWidth 8

/-- The 2-bit code of a status output (R34). -/
def Status.code : Status → BitVec 2
  | .ok => 0b00#2
  | .shortOfData => 0b01#2
  | .overflow => 0b10#2
  | .illegal => 0b11#2

end Sys2Proof.Machine
end

