-- ==== Sys2Proof/Machine/Ops.lean ====
section
/-! DEFINITION. The shared operations over lanes, the host buffer and the ports. The block has no trap entry and no trap return (spec 60_exceptions.md R175, R179), so there is no operation for taking an exception: its exceptional outcomes are output values. -/

namespace Sys2Proof.Machine

/-! ## Byte lanes -/

/-- `Lane(bus, k)` is `bus[8k+7:8k]` (20_memory.md R50). -/
def lane (bus : Bus) (k : Nat) : Byte := bus.extractLsb' (8 * k) 8

/-- A bus with byte k of the sequence in lane k and 0x00 in every lane above (R50, R132, R58). A byte after the tenth has no lane. -/
def packLanes : List Byte → Bus
  | [] => 0#80
  | b :: bs => (packLanes bs <<< 8) ||| b.setWidth 80

/-- The first `n` lanes, lane `start` first. -/
def lanesFrom (bus : Bus) (start : Nat) : Nat → List Byte
  | 0 => []
  | n + 1 => lane bus start :: lanesFrom bus (start + 1) n

/-! ## The host buffer -/

/-- `|buf|`: the number of bytes (20_memory.md R55). -/
def Memory.size (m : Memory) : Nat := m.length

/-- What an index the buffer does not hold reads as: no value (R55, R58; log entry 5). -/
def Memory.unlisted : Option Byte := none

/-- `MemRead(a, 1)` (00_scope.md R11). -/
def Memory.read (m : Memory) (a : Nat) : Option Byte :=
  match m with
  | [] => Memory.unlisted
  | (k, b) :: rest => if k = a then some b else Memory.read rest a

/-- `MemRead(a, n)` (00_scope.md R11); no value if one of the bytes has none. -/
def Memory.readBytes (m : Memory) (a : Nat) : Nat → Option (List Byte)
  | 0 => some []
  | n + 1 =>
    match Memory.read m a, Memory.readBytes m (a + 1) n with
    | some b, some bs => some (b :: bs)
    | _, _ => none

/-- Cells for the bytes of a sequence, the first at index `a`. -/
def cellsFrom (a : Nat) : List Byte → Memory
  | [] => []
  | b :: bs => (a, b) :: cellsFrom (a + 1) bs

/-- `BufAppend(s)`: `buf <- buf ++ s` (20_memory.md R56). -/
def Memory.append (m : Memory) (bs : List Byte) : Memory :=
  m ++ cellsFrom (Memory.size m) bs

/-- The canonical form: the indexes are `a`, `a + 1`, and so on, in order. -/
def denseFrom (a : Nat) : Memory → Bool
  | [] => true
  | (k, _) :: rest => k == a && denseFrom (a + 1) rest

/-- The buffer's canonical form: a byte sequence indexed from 0, without a hole (R55; log entry 5). -/
def Memory.wf (m : Memory) : Bool := denseFrom 0 m

/-- The buffer is within the host's bound (R57). -/
def fitsLimit (limit : Option Nat) (n : Nat) : Bool :=
  match limit with
  | none => true
  | some c => decide (n ≤ c)

/-- Append, if the host's buffer can grow by these bytes (R57; log entry 7). -/
def Memory.grow (m : Memory) (limit : Option Nat) (bs : List Byte) : Option Memory :=
  if fitsLimit limit (Memory.size m + bs.length) then some (Memory.append m bs) else none

/-! ## Ports -/

/-- The host presents the operand ports of `vz_core`. -/
def State.setOperands (s : State) (a : Option Wide) (b : Option Bus) (n : Option Count) : State :=
  { s with opa := a, inBytes := b, inAvail := n }

/-- The command word of `i` is on `cmd`, and the outputs of `vz_core` are `o`. -/
def State.drive (s : State) (i : Instr) (o : CoreOut) : State :=
  { s with cmd := some (encode i), coreOut := some o }

/-- The host's buffer is `m`. -/
def State.withBuf (s : State) (m : Memory) : State := { s with buf := m }

/-- The stand-alone units' ports are `u`. -/
def State.withUnits (s : State) (u : Units) : State := { s with units := u }

/-- The host's remaining program is `p`. -/
def State.withProgram (s : State) (p : List Statement) : State := { s with program := p }

/-- The port of the instance of width `w`. -/
def ZzPorts.get (p : ZzPorts) : (w : ZzWidth) → Option (BitVec w.bits)
  | .w8 => p.n8
  | .w16 => p.n16
  | .w32 => p.n32
  | .w64 => p.n64
  | .w128 => p.n128

/-- The port of the instance of width `w` carries `x`; the other instances' ports stay. -/
def ZzPorts.set (p : ZzPorts) : (w : ZzWidth) → BitVec w.bits → ZzPorts
  | .w8, x => { p with n8 := some x }
  | .w16, x => { p with n16 := some x }
  | .w32, x => { p with n32 := some x }
  | .w64, x => { p with n64 := some x }
  | .w128, x => { p with n128 := some x }

/-- Run a meaning on the operand ports. Every input port of the operation must be driven, also those the command ignores (10_state.md R36). -/
def State.withOperands (s : State)
    (k : Wide → Bus → Count → Host.Outcome State Fault Refusal) : Host.Outcome State Fault Refusal :=
  match s.opa, s.inBytes, s.inAvail with
  | some a, some b, some n => k a b n
  | _, _, _ => .refused .undrivenInput

/-- Drive the outputs and let the host append the valid lanes, lanes 0 to `count - 1` (20_memory.md R57); refused when they do not fit (log entry 7). DESIGN CHOICE: a put given as raw port values comes here too, and so appends or is refused as any other (log entry 18). -/
def State.driveAppend (s : State) (i : Instr) (o : CoreOut) : Host.Outcome State Fault Refusal :=
  match Memory.grow s.buf s.bufLimit (lanesFrom o.outBytes 0 o.count.toNat) with
  | some m => .next ((s.drive i o).withBuf m)
  | none => .refused .bufferCannotGrow

end Sys2Proof.Machine
end

