-- ==== Sys2Proof/Machine/Units.lean ====
section
/-! DEFINITION. The four units as functions of their inputs (spec 10_state.md R31): zig-zag encode and decode (40_zigzag.md), the varint encoder and decoder (41_varint.md), and the outputs of `vz_core` built from them (30_encoding.md R82). -/

namespace Sys2Proof.Machine

/-! ## Zig-zag -/

/-- `(p << 1) ^ (p >>s (N-1))` (R100; 90_conflicts.md C1). -/
def zigzagEncode {n : Nat} (x : BitVec n) : BitVec n :=
  (x <<< 1) ^^^ x.sshiftRight (n - 1)

/-- `(u >>u 1) ^ (0 - zext_N(u[0]))` (R102; 90_conflicts.md C2). -/
def zigzagDecode {n : Nat} (u : BitVec n) : BitVec n :=
  (u >>> 1) ^^^ (0#n - (u.extractLsb' 0 1).setWidth n)

/-! ## The varint encoder -/

/-- The loop of R130 with at most `fuel` passes: a continued byte while the value is at least 128, then the terminal byte. -/
def encodeLoop : Nat → Value → List Byte
  | 0, v => [terminalByte (v.extractLsb' 0 7)]
  | fuel + 1, v =>
    if 128#64 ≤ v then continuedByte (v.extractLsb' 0 7) :: encodeLoop fuel (v >>> 7)
    else [terminalByte (v.extractLsb' 0 7)]

/-- The bytes of `put_u64`, first byte first. The loop runs at most 9 times (R130). -/
def varintBytes (v : Value) : List Byte := encodeLoop 9 v

/-- The `varint_encoder`: bytes in lanes 0 to `len - 1`, 0x00 above (R130, R132). -/
def varintEncoder (v : Value) : EncOut where
  bytes := packLanes (varintBytes v)
  len := BitVec.ofNat 4 (varintBytes v).length

/-! ## The varint decoder -/

/-- How a decode ends (10_state.md R32): a value and its length, or an error with the bytes consumed. -/
inductive DecodeResult where
  | done (value : Value) (length : Nat)
  | shortOfData (consumed : Nat)
  | overflow (consumed : Nat)
deriving DecidableEq, Repr

/-- MAX_VARINT_LEN_U64 as the decoder's byte limit (R27, R135). -/
def byteLimit : Nat := Config.maxVarintLenU64.toNat

/-- `min(avail, 10)` (R135, R142). -/
def usableCount (avail : Count) : Nat := min avail.toNat byteLimit

/-- `acc | (zext_64(b[6:0]) << (7 * read))`, in 64 bits: a bit moved to position 64 or above is lost (R135, R140). -/
def accumulate (acc : Value) (b : Byte) (read : Nat) : Value :=
  acc ||| ((payload b).setWidth 64 <<< (7 * read))

/-- The loop of R135 with `left` bytes still to read; when none is left, 10 bytes read is an overflow and fewer is short data. -/
def decodeLoop (bytes : Bus) : Nat → Nat → Value → DecodeResult
  | 0, read, _ => if read = byteLimit then .overflow read else .shortOfData read
  | left + 1, read, acc =>
    if continuation (lane bytes read) then
      decodeLoop bytes left (read + 1) (accumulate acc (lane bytes read) read)
    else .done (accumulate acc (lane bytes read) read) (read + 1)

/-- `get_u64` from Reading(0) with `acc` = 0 (R135). -/
def decodeLanes (bytes : Bus) (avail : Count) : DecodeResult :=
  decodeLoop bytes (usableCount avail) 0 0#64

/-- The decoder's outputs for a result: value 0 on an error (R141). -/
def decOutOf : DecodeResult → DecOut
  | .done v n => ⟨.ok, v, BitVec.ofNat 4 n⟩
  | .shortOfData n => ⟨.shortOfData, 0#64, BitVec.ofNat 4 n⟩
  | .overflow n => ⟨.overflow, 0#64, BitVec.ofNat 4 n⟩

/-- The `varint_decoder` (R26, R135). -/
def varintDecoder (bytes : Bus) (avail : Count) : DecOut :=
  decOutOf (decodeLanes bytes avail)

/-- The states of the decoder's state machine (10_state.md R32). They live only within one operation (R33). -/
inductive DecPhase where
  | reading (index : Nat) (acc : Value)
  | finished (r : DecodeResult)
deriving DecidableEq, Repr

/-- The initial state: Reading(0), `acc` = 0 (R32, R35). -/
def decPhaseInit : DecPhase := .reading 0 0#64

/-- One transition (R32): Done on a terminal byte; Failed(Overflow) at index 10; Failed(ShortOfData) when the input is exhausted before. The terminal bit is tested first (60_exceptions.md R174). -/
def decPhaseNext (bytes : Bus) (avail : Count) : DecPhase → DecPhase
  | .reading index acc =>
    if index < usableCount avail then
      if continuation (lane bytes index) then
        .reading (index + 1) (accumulate acc (lane bytes index) index)
      else .finished (.done (accumulate acc (lane bytes index) index) (index + 1))
    else if index = byteLimit then .finished (.overflow index)
    else .finished (.shortOfData index)
  | .finished r => .finished r

/-- `k` transitions. -/
def decPhaseRun (bytes : Bus) (avail : Count) : Nat → DecPhase → DecPhase
  | 0, p => p
  | k + 1, p => decPhaseRun bytes avail k (decPhaseNext bytes avail p)

/-! ## The outputs of `vz_core`, by kind of command (R82): an output a command does not list is 0 -/

/-- `status = OK`, `out_bytes`, `count` (R82, R149). -/
def putOut (e : EncOut) : CoreOut := ⟨.ok, 0#128, e.bytes, e.len⟩

/-- `status`, `result[63:0]`, `count`; the upper half of `result` is 0 (R82, R149). -/
def getOut (d : DecOut) : CoreOut := ⟨d.status, d.value.setWidth 128, 0#80, d.count⟩

/-- `get_i64`: the decoder's value through the 64-bit zig-zag decoder when the status is OK, else 0; status and count unchanged (R147). -/
def signedDecOut (d : DecOut) : DecOut :=
  { d with value := if d.status = .ok then zigzagDecode d.value else 0#64 }

/-- `status = OK`, `result[N-1:0]`, zero-extended (R82, R114). -/
def zzOut {n : Nat} (r : BitVec n) : CoreOut := ⟨.ok, r.setWidth 128, 0#80, 0#4⟩

/-- A reserved word: ILLEGAL and every other output 0 (60_exceptions.md R176). -/
def illegalOut : CoreOut := ⟨.illegal, 0#128, 0#80, 0#4⟩

/-- The outputs of a legal command as a function of the operand ports (R82). -/
def commandOut (i : Instr) (opa : Wide) (inBytes : Bus) (inAvail : Count) : CoreOut :=
  match i with
  | .putU64 => putOut (varintEncoder (opa.extractLsb' 0 64))
  | .putI64 => putOut (varintEncoder (zigzagEncode (opa.extractLsb' 0 64)))
  | .getU64 => getOut (varintDecoder inBytes inAvail)
  | .getI64 => getOut (signedDecOut (varintDecoder inBytes inAvail))
  | .zzEnc8 => zzOut (zigzagEncode (opa.extractLsb' 0 8))
  | .zzEnc16 => zzOut (zigzagEncode (opa.extractLsb' 0 16))
  | .zzEnc32 => zzOut (zigzagEncode (opa.extractLsb' 0 32))
  | .zzEnc64 => zzOut (zigzagEncode (opa.extractLsb' 0 64))
  | .zzEnc128 => zzOut (zigzagEncode (opa.extractLsb' 0 128))
  | .zzDec8 => zzOut (zigzagDecode (opa.extractLsb' 0 8))
  | .zzDec16 => zzOut (zigzagDecode (opa.extractLsb' 0 16))
  | .zzDec32 => zzOut (zigzagDecode (opa.extractLsb' 0 32))
  | .zzDec64 => zzOut (zigzagDecode (opa.extractLsb' 0 64))
  | .zzDec128 => zzOut (zigzagDecode (opa.extractLsb' 0 128))

/-- `vz_core` at the operation level: its outputs, for every value of its inputs (10_state.md R30, R31). ILLEGAL is decided from `cmd` alone (60_exceptions.md R174). -/
def vzCore (cmd : CmdWord) (opa : Wide) (inBytes : Bus) (inAvail : Count) : CoreOut :=
  match decode cmd with
  | .instr i => commandOut i opa inBytes inAvail
  | .reserved _ => illegalOut

end Sys2Proof.Machine
end

