-- ==== Sys2Proof/Machine/Varint.lean ====
section
/-! DEFINITION. The meanings of the four varint commands (spec 41_varint.md R130, R135, R146, R147), at the host level: a put also appends to the host's buffer (20_memory.md R57), a get writes no buffer (R59). -/

namespace Sys2Proof.Machine

/-- `put_u64`, R130 and R57. DESIGN CHOICE: the append of R57 follows in every operand form, raw port values included (log entry 18). -/
def execPutU64 (s : State) : Host.Outcome State Fault Refusal :=
  s.withOperands fun a _ _ => s.driveAppend .putU64 (putOut (varintEncoder (a.extractLsb' 0 64)))

/-- `put_i64`, R146 and R57. DESIGN CHOICE: the append of R57 follows in every operand form, raw port values included (log entry 18). -/
def execPutI64 (s : State) : Host.Outcome State Fault Refusal :=
  s.withOperands fun a _ _ =>
    s.driveAppend .putI64 (putOut (varintEncoder (zigzagEncode (a.extractLsb' 0 64))))

/-- `get_u64`, R135. -/
def execGetU64 (s : State) : Host.Outcome State Fault Refusal :=
  s.withOperands fun _ b n => .next (s.drive .getU64 (getOut (varintDecoder b n)))

/-- `get_i64`, R147. -/
def execGetI64 (s : State) : Host.Outcome State Fault Refusal :=
  s.withOperands fun _ b n => .next (s.drive .getI64 (getOut (signedDecOut (varintDecoder b n))))

end Sys2Proof.Machine
end

