-- ==== Sys2Proof/Machine/Zigzag.lean ====
section
/-! DEFINITION. The meanings of the ten zig-zag commands (spec 40_zigzag.md R104 to R113). None has an error case, a flag or a side effect (R114). -/

namespace Sys2Proof.Machine

/-- `zz_enc.8`, R104. -/
def execZzEnc8 (s : State) : Host.Outcome State Fault Refusal :=
  s.withOperands fun a _ _ => .next (s.drive .zzEnc8 (zzOut (zigzagEncode (a.extractLsb' 0 8))))

/-- `zz_enc.16`, R105. -/
def execZzEnc16 (s : State) : Host.Outcome State Fault Refusal :=
  s.withOperands fun a _ _ => .next (s.drive .zzEnc16 (zzOut (zigzagEncode (a.extractLsb' 0 16))))

/-- `zz_enc.32`, R106. -/
def execZzEnc32 (s : State) : Host.Outcome State Fault Refusal :=
  s.withOperands fun a _ _ => .next (s.drive .zzEnc32 (zzOut (zigzagEncode (a.extractLsb' 0 32))))

/-- `zz_enc.64`, R107. -/
def execZzEnc64 (s : State) : Host.Outcome State Fault Refusal :=
  s.withOperands fun a _ _ => .next (s.drive .zzEnc64 (zzOut (zigzagEncode (a.extractLsb' 0 64))))

/-- `zz_enc.128`, R108. -/
def execZzEnc128 (s : State) : Host.Outcome State Fault Refusal :=
  s.withOperands fun a _ _ => .next (s.drive .zzEnc128 (zzOut (zigzagEncode (a.extractLsb' 0 128))))

/-- `zz_dec.8`, R109. -/
def execZzDec8 (s : State) : Host.Outcome State Fault Refusal :=
  s.withOperands fun a _ _ => .next (s.drive .zzDec8 (zzOut (zigzagDecode (a.extractLsb' 0 8))))

/-- `zz_dec.16`, R110. -/
def execZzDec16 (s : State) : Host.Outcome State Fault Refusal :=
  s.withOperands fun a _ _ => .next (s.drive .zzDec16 (zzOut (zigzagDecode (a.extractLsb' 0 16))))

/-- `zz_dec.32`, R111. -/
def execZzDec32 (s : State) : Host.Outcome State Fault Refusal :=
  s.withOperands fun a _ _ => .next (s.drive .zzDec32 (zzOut (zigzagDecode (a.extractLsb' 0 32))))

/-- `zz_dec.64`, R112. -/
def execZzDec64 (s : State) : Host.Outcome State Fault Refusal :=
  s.withOperands fun a _ _ => .next (s.drive .zzDec64 (zzOut (zigzagDecode (a.extractLsb' 0 64))))

/-- `zz_dec.128`, R113. -/
def execZzDec128 (s : State) : Host.Outcome State Fault Refusal :=
  s.withOperands fun a _ _ => .next (s.drive .zzDec128 (zzOut (zigzagDecode (a.extractLsb' 0 128))))

end Sys2Proof.Machine
end

