-- ==== Sys2Proof/Machine/Dispatch.lean ====
section
/-! DEFINITION. One arm per constructor of Instr: each calls its meaning. -/

namespace Sys2Proof.Machine

def exec (i : Instr) (s : State) : Host.Outcome State Fault Refusal :=
  match i with
  | .putU64 => Sys2Proof.Machine.execPutU64 s
  | .putI64 => Sys2Proof.Machine.execPutI64 s
  | .getU64 => Sys2Proof.Machine.execGetU64 s
  | .getI64 => Sys2Proof.Machine.execGetI64 s
  | .zzEnc8 => Sys2Proof.Machine.execZzEnc8 s
  | .zzEnc16 => Sys2Proof.Machine.execZzEnc16 s
  | .zzEnc32 => Sys2Proof.Machine.execZzEnc32 s
  | .zzEnc64 => Sys2Proof.Machine.execZzEnc64 s
  | .zzEnc128 => Sys2Proof.Machine.execZzEnc128 s
  | .zzDec8 => Sys2Proof.Machine.execZzDec8 s
  | .zzDec16 => Sys2Proof.Machine.execZzDec16 s
  | .zzDec32 => Sys2Proof.Machine.execZzDec32 s
  | .zzDec64 => Sys2Proof.Machine.execZzDec64 s
  | .zzDec128 => Sys2Proof.Machine.execZzDec128 s

end Sys2Proof.Machine
end

