-- ==== Sys2Proof/Machine/Operands.lean ====
section
/-! DEFINITION. The operand forms of a statement (spec 30_encoding.md R86) and how the host presents each one on the operand ports of `vz_core`. A port that the form does not name is driven 0 (log entry 6). -/

namespace Sys2Proof.Machine

/-- The least and greatest literal of a command that takes one (R86; ranges of 00_scope.md R9): `u64`, `i64`, `iN`, `uN`. -/
def literalRange : Instr → Option (Int × Int)
  | .putU64 => some (0, 2 ^ 64 - 1)
  | .putI64 => some (-2 ^ 63, 2 ^ 63 - 1)
  | .getU64 => none
  | .getI64 => none
  | .zzEnc8 => some (-2 ^ 7, 2 ^ 7 - 1)
  | .zzEnc16 => some (-2 ^ 15, 2 ^ 15 - 1)
  | .zzEnc32 => some (-2 ^ 31, 2 ^ 31 - 1)
  | .zzEnc64 => some (-2 ^ 63, 2 ^ 63 - 1)
  | .zzEnc128 => some (-2 ^ 127, 2 ^ 127 - 1)
  | .zzDec8 => some (0, 2 ^ 8 - 1)
  | .zzDec16 => some (0, 2 ^ 16 - 1)
  | .zzDec32 => some (0, 2 ^ 32 - 1)
  | .zzDec64 => some (0, 2 ^ 64 - 1)
  | .zzDec128 => some (0, 2 ^ 128 - 1)

/-- The commands that read the byte lanes (R82). -/
def readsLanes : Instr → Bool
  | .getU64 => true
  | .getI64 => true
  | .putU64 => false
  | .putI64 => false
  | .zzEnc8 => false
  | .zzEnc16 => false
  | .zzEnc32 => false
  | .zzEnc64 => false
  | .zzEnc128 => false
  | .zzDec8 => false
  | .zzDec16 => false
  | .zzDec32 => false
  | .zzDec64 => false
  | .zzDec128 => false

/-- R86 has this statement form for this command, and its literal is a value of the command's type. -/
def operandFits (i : Instr) : Operand → Bool
  | .literal v =>
    match literalRange i with
    | some (lo, hi) => decide (lo ≤ v ∧ v ≤ hi)
    | none => false
  | .buffer _ => readsLanes i
  | .bytes _ => readsLanes i
  | .ports _ _ _ => true

/-- The width of a command's value operand on `opa` (R82). -/
def operandWidth : Instr → Nat
  | .putU64 => 64
  | .putI64 => 64
  | .getU64 => 64
  | .getI64 => 64
  | .zzEnc8 => 8
  | .zzEnc16 => 16
  | .zzEnc32 => 32
  | .zzEnc64 => 64
  | .zzEnc128 => 128
  | .zzDec8 => 8
  | .zzDec16 => 16
  | .zzDec32 => 32
  | .zzDec64 => 64
  | .zzDec128 => 128

/-- A literal as the host drives it: its pattern at the operand's width, zero-extended (95_test_vectors.md program A; log entry 8). -/
def literalPattern (i : Instr) (v : Int) : Wide :=
  (BitVec.ofInt (operandWidth i) v).setWidth 128

/-- How many bytes of `data` the host presents: `min(10, |data|)` (R58). -/
def presentedCount (n : Nat) : Nat := min byteLimit n

/-- Present a byte sequence to the decoder: its first `min(10, |data|)` bytes, 0x00 in every other lane (R58). -/
def State.presentData (s : State) (data : List Byte) : State :=
  s.setOperands (some 0#128) (some (packLanes (data.take byteLimit)))
    (some (BitVec.ofNat 4 (presentedCount data.length)))

/-- The bytes the host presents for `@off`: `min(10, |buf| - off)` bytes from `off`, which must be at most `|buf|` (R58). -/
def Memory.dataAt (m : Memory) (off : Nat) : Option (List Byte) :=
  if off ≤ Memory.size m then Memory.readBytes m off (presentedCount (Memory.size m - off)) else none

/-- The host presents a statement's operand. A form or a literal that R86 does not have is refused (log entry 8). -/
def present (i : Instr) (operand : Operand) (s : State) : Except Refusal State :=
  if operandFits i operand then
    match operand with
    | .ports a b n => .ok (s.setOperands a b n)
    | .literal v => .ok (s.setOperands (some (literalPattern i v)) (some 0#80) (some 0#4))
    | .bytes data => .ok (s.presentData data)
    | .buffer off =>
      match Memory.dataAt s.buf off with
      | some data => .ok (s.presentData data)
      | none => .error .offsetBeyondBuffer
  else .error .illFormedStatement

end Sys2Proof.Machine
end

