-- ==== Sys2Proof/Machine/Issue.lean ====
section
/-! DEFINITION. Issuing one operation (spec 10_state.md R31): a command of `vz_core`, or a stand-alone unit. -/

namespace Sys2Proof.Machine

/-- Issue a command: `cmd` is decoded before anything else (60_exceptions.md R174), a reserved word is refused (R176), the operand is presented, and the command runs at the host level, whatever the operand form (DESIGN CHOICE for raw port values, log entry 18). -/
def issueCommand (cmd : Option CmdWord) (operand : Operand) (s : State) :
    Host.Outcome State Fault Refusal :=
  match cmd with
  | none => .refused .undrivenInput
  | some w =>
    match decode w with
    | .reserved why => .refused (.reservedCommand w why)
    | .instr i =>
      match present i operand s with
      | .ok s' => exec i s'
      | .error r => .refused r

/-- A stand-alone `varint_encoder`, at the operation level: no buffer is touched (R25; log entry 10). -/
def execEncoder (v : Option Value) (s : State) : Host.Outcome State Fault Refusal :=
  match v with
  | some v => .next (s.withUnits { s.units with encValue := some v, encOut := some (varintEncoder v) })
  | none => .refused .undrivenInput

/-- A stand-alone `varint_decoder` (R26). Status code 0b11 on it is a fault (93_implementation_defined.md I3; log entry 14). -/
def execDecoder (b : Option Bus) (n : Option Count) (s : State) : Host.Outcome State Fault Refusal :=
  match b, n with
  | some b, some n =>
    if (varintDecoder b n).status = .illegal then .fault .illegalFromDecoder
    else .next (s.withUnits
      { s.units with decBytes := some b, decAvail := some n, decOut := some (varintDecoder b n) })
  | _, _ => .refused .undrivenInput

/-- A stand-alone `zigzag_encoder` at width `w` (R28). -/
def execZigzagEncoder (w : ZzWidth) (x : Option (BitVec w.bits)) (s : State) :
    Host.Outcome State Fault Refusal :=
  match x with
  | some x => .next (s.withUnits
      { s.units with zzeIn := s.units.zzeIn.set w x, zzeOut := s.units.zzeOut.set w (zigzagEncode x) })
  | none => .refused .undrivenInput

/-- A stand-alone `zigzag_decoder` at width `w` (R29). -/
def execZigzagDecoder (w : ZzWidth) (u : Option (BitVec w.bits)) (s : State) :
    Host.Outcome State Fault Refusal :=
  match u with
  | some u => .next (s.withUnits
      { s.units with zzdIn := s.units.zzdIn.set w u, zzdOut := s.units.zzdOut.set w (zigzagDecode u) })
  | none => .refused .undrivenInput

/-- Issue one call. -/
def issue (c : Call) (s : State) : Host.Outcome State Fault Refusal :=
  match c with
  | .command cmd operand => issueCommand cmd operand s
  | .encoder v => execEncoder v s
  | .decoder b n => execDecoder b n s
  | .zigzagEncoder w x => execZigzagEncoder w x s
  | .zigzagDecoder w u => execZigzagDecoder w u s

/-- Issue the first statement of the program (30_encoding.md R86): none is no operation, and outputs must be sampled settled (70_reset_and_hazards.md R193). -/
def issueNext (s : State) : Host.Outcome State Fault Refusal :=
  match s.program with
  | [] => .refused .noStatement
  | st :: rest =>
    if st.settled then issue st.call (s.withProgram rest) else .refused .sampledUnsettled

/-- The statement that presents the table word `w` with the operand ports as they are, a port that is not driven being driven 0 (log entry 4). A number that is no command word drives no `cmd` (log entry 16). -/
def wordStatement (s : State) (w : Nat) : Statement where
  call := .command (cmdOfNat w)
    (.ports (some (s.opa.getD 0#128)) (some (s.inBytes.getD 0#80)) (some (s.inAvail.getD 0#4)))
  settled := true

end Sys2Proof.Machine
end

