-- ==== Sys2Proof/Machine/Step.lean ====
section
/-! DEFINITION. One step: the host issues the next statement of its program, as one whole operation (spec 00_scope.md R15; 20_memory.md R60, R61). -/

namespace Sys2Proof.Machine

/-- One operation. -/
def step (s : State) : Host.Outcome State Fault Refusal := issueNext s

/-- `s` with the table word `w` as the next statement of the program (log entry 4). Every row is one 7-bit word, so the bit count is not read (log entry 16). -/
def State.withFetchWord (s : State) (_nbits w : Nat) : State :=
  s.withProgram (wordStatement s w :: s.program)

end Sys2Proof.Machine
end

