-- ==== Sys2Proof/WellFormed.lean ====
section
/-! DEFINITION. Which statements of a host program are well formed, before any of them runs. An `Instr` has no operand field (30_encoding.md R82), so each of its 14 terms is well formed; the checks are on the statement: its word (R83), its operand form (R86), its literal's range, its driven ports (10_state.md R36), its sampling (70_reset_and_hazards.md R193). -/

namespace Sys2Proof

/-- Every port the operand presents is driven on every bit (R36). -/
def operandDriven : Machine.Operand → Bool
  | .literal _ => true
  | .buffer _ => true
  | .bytes _ => true
  | .ports a b n => a.isSome && b.isSome && n.isSome

/-- The call is a well-formed operation. -/
def callWellFormed : Machine.Call → Bool
  | .command none _ => false
  | .command (some w) operand =>
    match decode w with
    | .instr i => Machine.operandFits i operand && operandDriven operand
    | .reserved _ => false
  | .encoder v => v.isSome
  | .decoder b n => b.isSome && n.isSome
  | .zigzagEncoder _ x => x.isSome
  | .zigzagDecoder _ u => u.isSome

/-- The statement is well formed: its call is, and its outputs are sampled settled (R193). -/
def statementWellFormed (st : Machine.Statement) : Bool :=
  callWellFormed st.call && st.settled

/-- Every statement of the program is well formed. -/
def programWellFormed (p : List Machine.Statement) : Bool :=
  p.all statementWellFormed

end Sys2Proof
end

