-- ==== Sys2Proof/Safety.lean ====
section
/-! DEFINITION. What counts as a safe run and as a sound state, and the words the statements use: the spec's integer forms of zig-zag (40_zigzag.md R101, R102), the length of a varint (30_encoding.md R72), the value a byte sequence denotes (R71). -/

namespace Sys2Proof.Machine

/-! ## Safe runs -/

/-- The machine does not stop with a fault: the codec "never panics or aborts" (60_exceptions.md, before R170). A refusal is no claim about the hardware. -/
def safeOutcome : Host.Outcome State Fault Refusal → Prop
  | .next _ => True
  | .fault _ => False
  | .refused _ => True

/-! ## Sound states -/

/-- What `vz_core` drives for the inputs now on its ports; `none` while an input is not driven (10_state.md R31, R35; 70_reset_and_hazards.md R191). -/
def State.coreFunction (s : State) : Option CoreOut :=
  match s.cmd, s.opa, s.inBytes, s.inAvail with
  | some c, some a, some b, some n => some (vzCore c a b n)
  | _, _, _, _ => none

/-- What the stand-alone decoder drives for the inputs now on its ports. -/
def Units.decFunction (u : Units) : Option DecOut :=
  match u.decBytes, u.decAvail with
  | some b, some n => some (varintDecoder b n)
  | _, _ => none

/-- Every stand-alone unit's output is the function of its input (R31, R35). -/
structure Units.Agrees (u : Units) : Prop where
  encoder : u.encOut = u.encValue.map varintEncoder
  decoder : u.decOut = u.decFunction
  zigzagEncoder : ∀ w : ZzWidth, u.zzeOut.get w = (u.zzeIn.get w).map zigzagEncode
  zigzagDecoder : ∀ w : ZzWidth, u.zzdOut.get w = (u.zzdIn.get w).map zigzagDecode

/-- The invariant: every output port is the function of the current inputs (R31, R35), and the buffer is a byte sequence from index 0 (20_memory.md R55) within the host's bound (R57). -/
structure State.Inv (s : State) : Prop where
  core : s.coreOut = s.coreFunction
  units : s.units.Agrees
  buf : Memory.wf s.buf = true
  limit : fitsLimit s.bufLimit (Memory.size s.buf) = true

/-! ## Words of the statements -/

/-- Every operand port of `vz_core` is driven (10_state.md R36). -/
structure State.Driven (s : State) (a : Wide) (b : Bus) (n : Count) : Prop where
  opa : s.opa = some a
  inBytes : s.inBytes = some b
  inAvail : s.inAvail = some n

/-- `L(v)` (30_encoding.md R72, R73): the least L in 1 to 10 with v < 2^(7L). -/
structure IsVarintLength (v len : Nat) : Prop where
  pos : 1 ≤ len
  le : len ≤ 10
  fits : v < 2 ^ (7 * len)
  least : len = 1 ∨ 2 ^ (7 * (len - 1)) ≤ v

/-- Byte k of the encoding of `v` at length `len`: group k, with the continuation bit on every byte but the last (R51, R70, R71). -/
def encodedByte (v len k : Nat) : Nat :=
  v / 2 ^ (7 * k) % 128 + (if k + 1 < len then 128 else 0)

/-- Lanes 0 to `len - 1` of the bus are the encoding of `v`; nothing is said of the other lanes. -/
def HoldsEncoding (bus : Bus) (v len : Nat) : Prop :=
  ∀ k, k < len → (lane bus k).toNat = encodedByte v len k

/-- The value that the first `len` bytes denote, in 64 bits (R71). -/
def denoted (bus : Bus) : Nat → Value
  | 0 => 0#64
  | len + 1 => denoted bus len ||| ((payload (lane bus len)).setWidth 64 <<< (7 * len))

/-- Index `t` is the least whose byte has bit 7 clear (R136). -/
structure FirstTerminal (bus : Bus) (t : Nat) : Prop where
  before : ∀ k, k < t → continuation (lane bus k) = true
  terminal : continuation (lane bus t) = false

/-- The first `len` bytes all have bit 7 set (R137, R138). -/
def AllContinued (bus : Bus) (len : Nat) : Prop :=
  ∀ k, k < len → continuation (lane bus k) = true

/-- The integer function of R101. -/
def zigzagInt (x : Int) : Int := if 0 ≤ x then 2 * x else -2 * x - 1

/-- The integer function of R102. -/
def zagzigInt (u : Int) : Int := if u % 2 = 0 then u / 2 else -((u + 1) / 2)

/-- The value of `put_u64`: `opa[63:0]` as u64 (R82). -/
def putValueU64 (a : Wide) : Nat := (a.setWidth 64).toNat

/-- The value of `put_i64`: the zig-zag image of `opa[63:0]` as i64 (R82, R146). -/
def putValueI64 (a : Wide) : Nat := (zigzagInt (a.setWidth 64).toInt).toNat

/-- The call is a get at an offset beyond the end of the host's buffer (20_memory.md R58). -/
def State.ReadsBeyond (s : State) (c : Call) : Prop :=
  ∃ w off, c = .command (some w) (.buffer off) ∧ Memory.size s.buf < off

/-- The call is a put whose L(v) bytes do not fit the host's bound (20_memory.md R57). That L(v) decides, and not 10, is the model's reading (log entry 7); that raw port values count too is its choice (log entry 18). -/
def State.LacksRoom (s : State) (c : Call) : Prop :=
  ∃ i operand s' a b n len, c = .command (some (encode i)) operand ∧
    present i operand s = .ok s' ∧ s'.Driven a b n ∧
    (i = .putU64 ∧ IsVarintLength (putValueU64 a) len ∨
      i = .putI64 ∧ IsVarintLength (putValueI64 a) len) ∧
    fitsLimit s.bufLimit (Memory.size s.buf + len) = false

/-- What running command `i` leaves as it was: everything but `cmd`, the outputs of `vz_core` and the buffer. -/
structure CommandFrame (i : Instr) (s t : State) : Prop where
  cmd : t.cmd = some (encode i)
  opa : t.opa = s.opa
  inBytes : t.inBytes = s.inBytes
  inAvail : t.inAvail = s.inAvail
  units : t.units = s.units
  bufLimit : t.bufLimit = s.bufLimit
  program : t.program = s.program

/-- The buffer as it was: its size, and every byte, read one at a time. -/
structure BufferKept (s t : State) : Prop where
  size : Memory.size t.buf = Memory.size s.buf
  read : ∀ a, Memory.read t.buf a = Memory.read s.buf a

/-- `len` bytes are stored from the end of the buffer, index `Memory.size s.buf`, byte k being lane k of the bus, and every other index reads as before (R56, R57). -/
structure BufferGrows (s t : State) (bus : Bus) (len : Nat) : Prop where
  size : Memory.size t.buf = Memory.size s.buf + len
  stored : Memory.wf s.buf = true →
    ∀ k, k < len → Memory.read t.buf (Memory.size s.buf + k) = some (lane bus k)
  read : ∀ a, ¬ (Memory.size s.buf ≤ a ∧ a < Memory.size s.buf + len) → Memory.read t.buf a = Memory.read s.buf a

/-- On driven operands command `i` answers the next state `t`, with outputs `o`. -/
structure Answers (i : Instr) (s t : State) (o : CoreOut) : Prop where
  runs : exec i s = .next t
  out : t.coreOut = some o

/-- ... and it stores nothing: all but `cmd` and the outputs of `vz_core` is as it was. -/
structure AnswersOnly (i : Instr) (s t : State) (o : CoreOut) : Prop extends Answers i s t o where
  frame : CommandFrame i s t
  kept : BufferKept s t

/-- ... and the host appends the valid lanes, as many as `count` says (R57). -/
structure AnswersAppending (i : Instr) (s t : State) (o : CoreOut) : Prop extends Answers i s t o where
  frame : CommandFrame i s t
  grows : BufferGrows s t o.outBytes o.count.toNat

end Sys2Proof.Machine
end

