-- ==== Sys2Proof/Certificates/Slice0/Obligations.lean ====
section
/-! DEFINITION. The statements for the provers. Outputs that carry no source value (encoder lanes at or above the length, the value on a decode error, outputs a command does not define) are in no conclusion: spec 93_implementation_defined.md I5 and I6 (log entry 13). -/

open Sys2Proof Sys2Proof.Machine

/-! ## Reset, step, decode -/

/-- R190, R191: after power-up no input of `vz_core` or of a stand-alone unit is driven and no output carries a meaning. That the buffer is empty, has no bound, and that no program is loaded are the model's choice (log entries 3 and 4). -/
def Obligations.ResetDrivesNothing : Prop :=
  State.reset.cmd = none ∧ State.reset.opa = none ∧ State.reset.inBytes = none ∧
  State.reset.inAvail = none ∧ State.reset.coreOut = none ∧ State.reset.units = Units.undriven ∧
  State.reset.buf = [] ∧ State.reset.bufLimit = none ∧ State.reset.program = []

/-- The invariant holds after power-up. -/
def Obligations.ResetMeetsInvariant : Prop := State.reset.Inv

/-- Every step keeps the invariant: each output port is the function of the inputs now on the input ports (R31, R35), the buffer is a byte sequence from index 0 (R55), within the host's bound (R57). -/
def Obligations.StepKeepsInvariant : Prop :=
  ∀ s t : State, s.Inv → step s = .next t → t.Inv

/-- No step faults, from any state: the decoder never drives code 0b11 (R34; 93_implementation_defined.md I3), and "the codec never panics or aborts". -/
def Obligations.StepNeverFaults : Prop :=
  ∀ s : State, safeOutcome (step s)

/-- The width-limit constants of R27, with their 4-bit tie-offs; the third is the decoder's byte limit. -/
def Obligations.WidthLimitConstants : Prop :=
  Config.maxVarintLenU16 = 0b0011#4 ∧ Config.maxVarintLenU32 = 0b0101#4 ∧
  Config.maxVarintLenU64 = 0b1010#4 ∧ byteLimit = 10

/-- A step whose next statement is a settled command runs the instruction its word decodes to, on the state in which the operand is presented and the statement is taken off the program. An operand of raw port values is put on the ports and nothing else changes; that a put given so then runs as `exec` has it, append included, is the model's choice (log entry 18). -/
def Obligations.StepRunsDecodedCommand : Prop :=
  (∀ (s s' : State) (w : CmdWord) (operand : Operand) (i : Instr) (rest : List Statement),
    s.program = ⟨.command (some w) operand, true⟩ :: rest → decode w = .instr i →
    present i operand (s.withProgram rest) = .ok s' → step s = exec i s') ∧
  (∀ (i : Instr) (a : Option Wide) (b : Option Bus) (n : Option Count) (s : State),
    present i (.ports a b n) s = .ok { s with opa := a, inBytes := b, inAvail := n })

/-- The word that `withFetchWord` places runs as the very next operation, on the operand ports as they are, an undriven one being driven 0; the rest of the program stays (log entry 4). A put so placed appends, the model's choice (log entry 18). -/
def Obligations.FetchWordRunsNext : Prop :=
  ∀ (s : State) (nbits w : Nat) (i : Instr), decodeTableWord nbits w = some i →
    step (s.withFetchWord nbits w) =
      exec i { s with
        opa := some (s.opa.getD 0#128)
        inBytes := some (s.inBytes.getD 0#80)
        inAvail := some (s.inAvail.getD 0#4) }

/-- Decode and encode agree, in both directions (R81). -/
def Obligations.CommandWordsRoundTrip : Prop :=
  (∀ i : Instr, decode (encode i) = .instr i) ∧
  (∀ (w : CmdWord) (i : Instr), decode w = .instr i → encode i = w)

/-- One word of each family, from the table of R81. -/
def Obligations.TableWordsDecode : Prop :=
  decode 0b0000000#7 = .instr .putU64 ∧ decode 0b0000011#7 = .instr .getI64 ∧
  decode 0b0110100#7 = .instr .zzEnc64 ∧ decode 0b1000101#7 = .instr .zzDec128

/-- R83: the three kinds of reserved word, 114 in all, and each executes as ILLEGAL. -/
def Obligations.ReservedWordsAreIllegal : Prop :=
  (∀ w : CmdWord, (∃ why, decode w = .reserved why) ↔
    (6 ≤ (opField w).toNat ∨ ((opField w).toNat ≤ 3 ∧ (zwField w).toNat ≠ 0) ∨
      (((opField w).toNat = 4 ∨ (opField w).toNat = 5) ∧ 5 ≤ (zwField w).toNat))) ∧
  ((List.range 128).filter (fun w => (decodeTableWord 7 w).isNone)).length = 114 ∧
  (∀ (w : CmdWord) (why : ReservedReason) (a : Wide) (b : Bus) (n : Count),
    decode w = .reserved why → (vzCore w a b n).status = .illegal)

/-- R176: for a reserved word the hardware drives ILLEGAL (0b11) and 0 on every other output, whatever the operands; a program that issues one is refused, whatever its operand, so nothing is appended. -/
def Obligations.ReservedWordRefused : Prop :=
  Status.code .illegal = 0b11#2 ∧
  (∀ (w : CmdWord) (why : ReservedReason), decode w = .reserved why →
    (∀ (a : Wide) (b : Bus) (n : Count), vzCore w a b n = ⟨.illegal, 0#128, 0#80, 0#4⟩) ∧
    (∀ (s : State) (operand : Operand) (rest : List Statement),
      s.program = ⟨.command (some w) operand, true⟩ :: rest →
      step s = .refused (.reservedCommand w why)))

/-- R84: status code 0b11 comes only from a reserved command, never from a stand-alone decoder; counts 11 to 15 are not reserved, they act as 10. -/
def Obligations.IllegalOnlyFromReservedWord : Prop :=
  (∀ (w : CmdWord) (a : Wide) (b : Bus) (n : Count),
    (vzCore w a b n).status.code = 0b11#2 ↔ ∃ why, decode w = .reserved why) ∧
  (∀ (b : Bus) (n : Count), (varintDecoder b n).status.code ≠ 0b11#2) ∧
  (∀ (w : CmdWord) (a : Wide) (b : Bus) (n : Count), 10 < n.toNat →
    vzCore w a b n = vzCore w a b 10#4 ∧ varintDecoder b n = varintDecoder b 10#4)

/-- R36: an operation on an input bit that is not driven is refused: any command with an undriven operand port, an undriven command word, and each stand-alone unit. -/
def Obligations.UndrivenInputRefused : Prop :=
  (∀ (i : Instr) (s : State), (s.opa = none ∨ s.inBytes = none ∨ s.inAvail = none) →
    exec i s = .refused .undrivenInput) ∧
  (∀ (operand : Operand) (s : State), issue (.command none operand) s = .refused .undrivenInput) ∧
  (∀ s : State, issue (.encoder none) s = .refused .undrivenInput) ∧
  (∀ (b : Option Bus) (n : Option Count) (s : State), (b = none ∨ n = none) →
    issue (.decoder b n) s = .refused .undrivenInput) ∧
  (∀ (w : ZzWidth) (s : State), issue (.zigzagEncoder w none) s = .refused .undrivenInput ∧
    issue (.zigzagDecoder w none) s = .refused .undrivenInput)

/-- R193: outputs sampled before they settle are refused, whatever the operation. With no statement there is no step: the model's own refusal (log entry 4). -/
def Obligations.UnsettledSampleRefused : Prop :=
  (∀ (s : State) (c : Call) (rest : List Statement), s.program = ⟨c, false⟩ :: rest →
    step s = .refused .sampledUnsettled) ∧
  (∀ s : State, s.program = [] → step s = .refused .noStatement)

/-- A well-formed statement answers a next state, with the rest of the program, unless the host's buffer alone prevents it: it is refused as `offsetBeyondBuffer` for a get whose offset is beyond the end (R58), as `bufferCannotGrow` for a put whose bytes do not fit the bound (R57), and otherwise it runs. That L(v) bytes of room suffice is the model's reading (log entry 7), and that a put given as raw port values needs them is its choice (log entry 18). -/
def Obligations.WellFormedStatementRuns : Prop :=
  ∀ (s : State) (st : Statement) (rest : List Statement),
    s.program = st :: rest → statementWellFormed st = true → Memory.wf s.buf = true →
    (s.ReadsBeyond st.call → step s = .refused .offsetBeyondBuffer) ∧
    (s.LacksRoom st.call → step s = .refused .bufferCannotGrow) ∧
    (¬ s.ReadsBeyond st.call → ¬ s.LacksRoom st.call →
      ∃ t, step s = .next t ∧ t.program = rest)

/-! ## `vz_core` as a function -/

/-- R31: what a command drives is the function of its inputs alone: that of `vz_core` on its word and the operand ports, whatever any earlier operation left. The same holds of each stand-alone unit. -/
def Obligations.OutputsAreFunctionOfInputs : Prop :=
  (∀ (i : Instr) (s s' t t' : State) (a : Wide) (b : Bus) (n : Count),
    s.Driven a b n → s'.Driven a b n → exec i s = .next t → exec i s' = .next t' →
    t.coreOut = some (vzCore (encode i) a b n) ∧ t'.coreOut = t.coreOut) ∧
  (∀ (s s' t t' : State) (v : Option Value), issue (.encoder v) s = .next t →
    issue (.encoder v) s' = .next t' → t'.units.encOut = t.units.encOut) ∧
  (∀ (s s' t t' : State) (b : Option Bus) (n : Option Count), issue (.decoder b n) s = .next t →
    issue (.decoder b n) s' = .next t' → t'.units.decOut = t.units.decOut) ∧
  (∀ (s s' t t' : State) (w : ZzWidth) (x : Option (BitVec w.bits)),
    (issue (.zigzagEncoder w x) s = .next t → issue (.zigzagEncoder w x) s' = .next t' →
      t'.units.zzeOut.get w = t.units.zzeOut.get w) ∧
    (issue (.zigzagDecoder w x) s = .next t → issue (.zigzagDecoder w x) s' = .next t' →
      t'.units.zzdOut.get w = t.units.zzdOut.get w))

/-- R170: the three exceptional outcomes, who raises each, and what `count` records. -/
def Obligations.ExceptionalOutcomeCounts : Prop :=
  ∀ (w : CmdWord) (a : Wide) (b : Bus) (n : Count),
    ((vzCore w a b n).status.code = 0b01#2 →
      (decode w = .instr .getU64 ∨ decode w = .instr .getI64) ∧ (vzCore w a b n).count.toNat ≤ 9) ∧
    ((vzCore w a b n).status.code = 0b10#2 →
      (decode w = .instr .getU64 ∨ decode w = .instr .getI64) ∧ (vzCore w a b n).count.toNat = 10) ∧
    ((vzCore w a b n).status.code = 0b11#2 →
      (∃ why, decode w = .reserved why) ∧ (vzCore w a b n).count.toNat = 0)

/-- R173: the puts and every zig-zag command give status OK. -/
def Obligations.PutsAndZigzagsAlwaysOk : Prop :=
  ∀ (i : Instr), i ≠ .getU64 → i ≠ .getI64 →
    (∀ (a : Wide) (b : Bus) (n : Count), (vzCore (encode i) a b n).status = .ok) ∧
    (∀ (s t : State) (o : CoreOut), Answers i s t o → o.status = .ok)

/-! ## Zig-zag -/

namespace Sys2Proof.Machine

/-- Command `i` is zig-zag encode at width `n`: on driven operands it completes with status OK and, zero-extended, the image of R101 of `opa[n-1:0]` read as two's complement, and changes nothing else. -/
def ZigzagEncodes (i : Instr) (n : Nat) : Prop :=
  ∀ (s : State) (a : Wide) (b : Bus) (c : Count), s.Driven a b c →
    ∃ t o, AnswersOnly i s t o ∧ o.status = .ok ∧
      (o.result.toNat : Int) = zigzagInt (a.setWidth n).toInt

/-- Command `i` is zig-zag decode at width `n`: on driven operands it completes with status OK and, in `result[n-1:0]` as two's complement with 0 above, the image of R102 of `opa[n-1:0]`, and changes nothing else. -/
def ZigzagDecodes (i : Instr) (n : Nat) : Prop :=
  ∀ (s : State) (a : Wide) (b : Bus) (c : Count), s.Driven a b c →
    ∃ t o, AnswersOnly i s t o ∧ o.status = .ok ∧ o.result.toNat < 2 ^ n ∧
      (o.result.setWidth n).toInt = zagzigInt (a.setWidth n).toNat

end Sys2Proof.Machine

/-- R101: each `zz_enc.N` completes, with 2x for x at least 0 and -2x - 1 below; the result is even exactly when x is at least 0, MAX_N gives 2^N - 2, and MIN_N gives all ones. -/
def Obligations.ZigzagEncodeCompletes : Prop :=
  (ZigzagEncodes .zzEnc8 8 ∧ ZigzagEncodes .zzEnc16 16 ∧ ZigzagEncodes .zzEnc32 32 ∧
    ZigzagEncodes .zzEnc64 64 ∧ ZigzagEncodes .zzEnc128 128) ∧
  (∀ (w : ZzWidth) (x : BitVec w.bits),
    ((zigzagEncode x).toNat % 2 = 0 ↔ 0 ≤ x.toInt)) ∧
  (∀ w : ZzWidth, (zigzagEncode (BitVec.intMax w.bits)).toNat = 2 ^ w.bits - 2 ∧
    zigzagEncode (BitVec.intMin w.bits) = BitVec.allOnes w.bits)

/-- R102: each `zz_dec.N` completes, with u / 2 when u is even and -(u + 1) / 2 when u is odd. -/
def Obligations.ZigzagDecodeCompletes : Prop :=
  ZigzagDecodes .zzDec8 8 ∧ ZigzagDecodes .zzDec16 16 ∧ ZigzagDecodes .zzDec32 32 ∧
  ZigzagDecodes .zzDec64 64 ∧ ZigzagDecodes .zzDec128 128

/-- R103: at every width the two functions are mutual inverses, and neither is its own inverse. -/
def Obligations.ZigzagMutualInverses : Prop :=
  ∀ w : ZzWidth,
    (∀ x : BitVec w.bits, zigzagDecode (zigzagEncode x) = x) ∧
    (∀ u : BitVec w.bits, zigzagEncode (zigzagDecode u) = u) ∧
    (∃ x : BitVec w.bits, zigzagEncode (zigzagEncode x) ≠ x) ∧
    (∃ u : BitVec w.bits, zigzagDecode (zigzagDecode u) ≠ u)

/-- The wrapper's `zz_enc.N` and `zz_dec.N` undo each other through `result` and `opa`: encoding, then decoding what was driven, gives the operand's low N bits back, and the other way round. -/
def Obligations.ZigzagCommandsUndoEachOther : Prop :=
  ∀ (w : ZzWidth) (s t : State) (a : Wide) (b : Bus) (c : Count) (o : CoreOut),
    s.Driven a b c →
    (Answers (zzEncOf w) s t o → ∃ u p,
      AnswersOnly (zzDecOf w) (t.setOperands (some o.result) (some b) (some c)) u p ∧
      p.result = (a.setWidth w.bits).setWidth 128) ∧
    (Answers (zzDecOf w) s t o → ∃ u p,
      AnswersOnly (zzEncOf w) (t.setOperands (some o.result) (some b) (some c)) u p ∧
      p.result = (a.setWidth w.bits).setWidth 128)

/-! ## The varint encoder -/

namespace Sys2Proof.Machine

/-- Command `i` puts the varint of `value opa` (as a number below 2^64): on driven operands, with room for its L(v) bytes, it completes with status OK, `count` = L(v), byte k of the encoding in each lane below, those bytes appended to the host's buffer, and changes nothing else. That room for L(v) bytes suffices, where R57 speaks of up to 10, is the model's reading (DEDUCED, log entry 7). -/
def PutsVarint (i : Instr) (value : Wide → Nat) : Prop :=
  ∀ (s : State) (a : Wide) (b : Bus) (n : Count) (len : Nat), s.Driven a b n →
    IsVarintLength (value a) len → fitsLimit s.bufLimit (Memory.size s.buf + len) = true →
    ∃ t o, AnswersAppending i s t o ∧ o.status = .ok ∧ o.count.toNat = len ∧
      HoldsEncoding o.outBytes (value a) len

end Sys2Proof.Machine

/-- `put_u64` (R130, R131, R57). That it completes with room for its L(v) bytes, fewer than 10 included, is the model's reading of R57 (DEDUCED, unsafe: log entry 7). -/
def Obligations.PutU64Completes : Prop := PutsVarint .putU64 putValueU64

/-- `put_i64`: the wire carries the varint of the 64-bit zig-zag image (R76, R146, R57). That it completes with room for its L(v) bytes, fewer than 10 included, is the model's reading of R57 (DEDUCED, unsafe: log entry 7). -/
def Obligations.PutI64Completes : Prop := PutsVarint .putI64 putValueI64

/-- R131: the length the encoder gives is L(v), always between 1 and 10, and depends on v alone. -/
def Obligations.EncoderLengthIsL : Prop :=
  ∀ v : Value, IsVarintLength v.toNat (varintEncoder v).len.toNat ∧
    1 ≤ (varintEncoder v).len.toNat ∧ (varintEncoder v).len.toNat ≤ 10 ∧
    ∀ len, IsVarintLength v.toNat len → len = (varintEncoder v).len.toNat

/-- R73: the table of length boundaries, row by row, and the three width limits. -/
def Obligations.LengthBoundaryTable : Prop :=
  (∀ row ∈ ([
      (1, 0x0, 0x7F), (2, 0x80, 0x3FFF), (3, 0x4000, 0x1FFFFF), (4, 0x200000, 0xFFFFFFF),
      (5, 0x10000000, 0x7FFFFFFFF), (6, 0x800000000, 0x3FFFFFFFFFF),
      (7, 0x40000000000, 0x1FFFFFFFFFFFF), (8, 0x2000000000000, 0xFFFFFFFFFFFFFF),
      (9, 0x100000000000000, 0x7FFFFFFFFFFFFFFF),
      (10, 0x8000000000000000, 0xFFFFFFFFFFFFFFFF)] : List (Nat × Nat × Nat)),
    ∀ v : Value, (varintEncoder v).len.toNat = row.1 ↔ row.2.1 ≤ v.toNat ∧ v.toNat ≤ row.2.2) ∧
  (∀ v : Value, (v.toNat < 2 ^ 16 → (varintEncoder v).len ≤ Config.maxVarintLenU16) ∧
    (v.toNat < 2 ^ 32 → (varintEncoder v).len ≤ Config.maxVarintLenU32) ∧
    (varintEncoder v).len ≤ Config.maxVarintLenU64)

/-- R133: an encoding is a well-formed varint of length L(v); its final byte is 0x00 only for 0; a tenth byte is 0x01; no two values have the same encoding. -/
def Obligations.EncodingIsWellFormedAndInjective : Prop :=
  (∀ (v : Value) (len : Nat), (varintEncoder v).len.toNat = len →
    IsVarintLength v.toNat len ∧
    FirstTerminal (varintEncoder v).bytes (len - 1) ∧
    (lane (varintEncoder v).bytes (len - 1) = 0x00#8 → v = 0#64) ∧
    (len = 10 → lane (varintEncoder v).bytes 9 = 0x01#8)) ∧
  (∀ v w : Value, (varintEncoder v).len = (varintEncoder w).len →
    (∀ k, k < (varintEncoder v).len.toNat →
      lane (varintEncoder v).bytes k = lane (varintEncoder w).bytes k) → v = w)

/-- A put whose bytes do not fit the host's bound is refused (R57, 93_implementation_defined.md I9; that the bytes' own number decides is the model's reading, log entry 7). -/
def Obligations.PutWithoutRoomRefused : Prop :=
  ∀ (s : State) (a : Wide) (b : Bus) (n : Count) (bound len : Nat), s.Driven a b n →
    s.bufLimit = some bound → bound < Memory.size s.buf + len →
    (IsVarintLength (putValueU64 a) len → exec .putU64 s = .refused .bufferCannotGrow) ∧
    (IsVarintLength (putValueI64 a) len → exec .putI64 s = .refused .bufferCannotGrow)

/-! ## The varint decoder -/

/-- R136: `get_u64` completes; it succeeds exactly when a byte below index min(avail, 10) has bit 7 clear; the least such index t gives count t + 1 and, zero-extended, the value that bytes 0 to t denote. It changes nothing else. -/
def Obligations.GetU64SucceedsAtFirstTerminal : Prop :=
  ∀ (s : State) (a : Wide) (b : Bus) (n : Count), s.Driven a b n →
    ∃ t o, AnswersOnly .getU64 s t o ∧
      (o.status = .ok ↔ ∃ k, k < min n.toNat 10 ∧ continuation (lane b k) = false) ∧
      (∀ k, k < min n.toNat 10 → FirstTerminal b k →
        o.count.toNat = k + 1 ∧ o.result = (denoted b (k + 1)).setWidth 128)

/-- `get_i64` completes, with the status and count of `get_u64` unchanged and, on OK, the zig-zag decode of its value as a 64-bit pattern with 0 above (R147, R149). It changes nothing else. -/
def Obligations.GetI64DecodesGetU64 : Prop :=
  ∀ (s : State) (a : Wide) (b : Bus) (n : Count), s.Driven a b n →
    ∃ t o u p, AnswersOnly .getI64 s t o ∧ Answers .getU64 s u p ∧
      o.status = p.status ∧ o.count = p.count ∧
      (o.status = .ok → o.result.toNat < 2 ^ 64 ∧
        (o.result.setWidth 64).toInt = zagzigInt p.result.toNat)

/-- R137: a decode ends in Overflow(10) exactly when min(avail, 10) = 10 and bytes 0 to 9 all have bit 7 set. -/
def Obligations.DecodeOverflowsExactlyWhen : Prop :=
  ∀ (i : Instr) (s : State) (a : Wide) (b : Bus) (n : Count), i = .getU64 ∨ i = .getI64 →
    s.Driven a b n → ∃ t o, AnswersOnly i s t o ∧
      (o.status = .overflow ↔ min n.toNat 10 = 10 ∧ AllContinued b 10) ∧
      (o.status = .overflow → o.count.toNat = 10)

/-- R138: a decode ends in ShortOfData(a) exactly when a = min(avail, 10) is below 10 and bytes 0 to a - 1 all have bit 7 set, a = 0 included. -/
def Obligations.DecodeShortExactlyWhen : Prop :=
  ∀ (i : Instr) (s : State) (a : Wide) (b : Bus) (n : Count), i = .getU64 ∨ i = .getI64 →
    s.Driven a b n → ∃ t o, AnswersOnly i s t o ∧
      (o.status = .shortOfData ↔ min n.toNat 10 < 10 ∧ AllContinued b (min n.toNat 10)) ∧
      (o.status = .shortOfData → o.count.toNat = min n.toNat 10)

/-- R142: counts 11 to 15 act exactly as 10, in both get commands. -/
def Obligations.CountsAboveTenActAsTen : Prop :=
  ∀ (i : Instr) (s t : State) (a : Wide) (b : Bus) (n : Count) (o : CoreOut),
    i = .getU64 ∨ i = .getI64 → s.Driven a b n → 10 < n.toNat → Answers i s t o →
    ∃ t', AnswersOnly i (s.setOperands (some a) (some b) (some 10#4)) t' o

/-- R139: a decode's outputs do not depend on the lanes at or above min(avail, 10), nor, on success, on those at or above `count`; and bytes of the host's data beyond the tenth are never presented. -/
def Obligations.UnreadLanesDoNotMatter : Prop :=
  (∀ (i : Instr) (s s' t t' : State) (a a' : Wide) (b b' : Bus) (n : Count) (o o' : CoreOut),
    i = .getU64 ∨ i = .getI64 → s.Driven a b n → s'.Driven a' b' n →
    Answers i s t o → Answers i s' t' o' →
    ((∀ k, k < min n.toNat 10 → lane b k = lane b' k) → o' = o) ∧
    (o.status = .ok → (∀ k, k < o.count.toNat → lane b k = lane b' k) → o' = o)) ∧
  (∀ (i : Instr) (s : State) (data more : List Byte), data.length = 10 →
    present i (.bytes (data ++ more)) s = present i (.bytes data) s)

/-- R140: with nine continued bytes and a terminal tenth, the decode succeeds with count 10; bit 63 of the value is bit 0 of the tenth byte, and its payload bits 1 to 6 change nothing. -/
def Obligations.TenthByteKeepsOneBit : Prop :=
  ∀ (s : State) (a : Wide) (b : Bus) (n : Count), s.Driven a b n → 10 ≤ n.toNat →
    FirstTerminal b 9 → ∃ t o, AnswersOnly .getU64 s t o ∧ o.status = .ok ∧ o.count.toNat = 10 ∧
      o.result.getLsbD 63 = (lane b 9).getLsbD 0 ∧
      ∀ b' : Bus, FirstTerminal b' 9 → (∀ k, k < 9 → lane b' k = lane b k) →
        (lane b' 9).getLsbD 0 = (lane b 9).getLsbD 0 →
        ∃ t', AnswersOnly .getU64 (s.setOperands (some a) (some b') (some n)) t' o

/-- R32: the decoder's state machine, from Reading(0) with a zero accumulator, is in its final state after at most 11 transitions, and that state is the result of the decode. -/
def Obligations.StateMachineGivesTheDecode : Prop :=
  decPhaseInit = .reading 0 0#64 ∧
  ∀ (b : Bus) (n : Count) (k : Nat), 11 ≤ k →
    decPhaseRun b n k decPhaseInit = .finished (decodeLanes b n)

/-! ## Encode and decode together -/

/-- R143: for every u64 value, decoding the bytes `put_u64` drives gives OK, the value and the count L(v), whatever bytes follow. -/
def Obligations.UnsignedRoundTrip : Prop :=
  ∀ (s t s' : State) (a a' : Wide) (b b' : Bus) (n n' : Count) (o : CoreOut),
    s.Driven a b n → Answers .putU64 s t o → s'.Driven a' b' n' →
    o.count.toNat ≤ n'.toNat → (∀ k, k < o.count.toNat → lane b' k = lane o.outBytes k) →
    ∃ t' o', AnswersOnly .getU64 s' t' o' ∧ o'.status = .ok ∧
      o'.result = (a.setWidth 64).setWidth 128 ∧ o'.count = o.count ∧
      IsVarintLength (putValueU64 a) o'.count.toNat

/-- R148: for every i64 value, `get_i64` of the bytes `put_i64` drives gives OK, the value and the same count, that of the zig-zag image. -/
def Obligations.SignedRoundTrip : Prop :=
  ∀ (s t s' : State) (a a' : Wide) (b b' : Bus) (n n' : Count) (o : CoreOut),
    s.Driven a b n → Answers .putI64 s t o → s'.Driven a' b' n' →
    o.count.toNat ≤ n'.toNat → (∀ k, k < o.count.toNat → lane b' k = lane o.outBytes k) →
    ∃ t' o', AnswersOnly .getI64 s' t' o' ∧ o'.status = .ok ∧
      o'.result = (a.setWidth 64).setWidth 128 ∧ o'.count = o.count ∧
      IsVarintLength (putValueI64 a) o'.count.toNat

/-- R144: decoding the first L - 1 bytes of an encoding of length L gives ShortOfData(L - 1). -/
def Obligations.TruncationDetected : Prop :=
  ∀ (s t s' : State) (a a' : Wide) (b b' : Bus) (n n' : Count) (o : CoreOut),
    s.Driven a b n → Answers .putU64 s t o → s'.Driven a' b' n' →
    n'.toNat = o.count.toNat - 1 → (∀ k, k < n'.toNat → lane b' k = lane o.outBytes k) →
    ∃ t' o', AnswersOnly .getU64 s' t' o' ∧ o'.status = .shortOfData ∧ o'.count = n'

/-- Over-long encodings decode to their value with their own length (R145): the encoding of v with its last byte continued, 0x80 bytes after it, and a final 0x00, of any length up to 10. -/
def Obligations.OverlongEncodingsAccepted : Prop :=
  ∀ (s : State) (a : Wide) (b : Bus) (n : Count) (v : Value) (len long : Nat),
    s.Driven a b n → IsVarintLength v.toNat len → len < long → long ≤ 10 → long ≤ n.toNat →
    (∀ k, k < len → (lane b k).toNat = v.toNat / 2 ^ (7 * k) % 128 + 128) →
    (∀ k, len ≤ k → k + 1 < long → lane b k = 0x80#8) → lane b (long - 1) = 0x00#8 →
    ∃ t o, AnswersOnly .getU64 s t o ∧ o.status = .ok ∧ o.result = v.setWidth 128 ∧
      o.count.toNat = long

/-- R87: `put_i64` is `zz_enc.64` and then `put_u64` of its result: same bytes, same count, same buffer; `get_i64` is `get_u64` and then, on OK, `zz_dec.64` of its result. -/
def Obligations.SignedCommandsAreCompositions : Prop :=
  (∀ (s t : State) (a : Wide) (b : Bus) (n : Count) (o : CoreOut), s.Driven a b n →
    Answers .putI64 s t o → ∃ u p t' o', AnswersOnly .zzEnc64 s u p ∧
      AnswersAppending .putU64 (u.setOperands (some p.result) (some b) (some n)) t' o' ∧
      o'.status = o.status ∧ o'.count = o.count ∧
      (∀ k, k < o.count.toNat → lane o'.outBytes k = lane o.outBytes k) ∧ t'.buf = t.buf) ∧
  (∀ (s t : State) (a : Wide) (b : Bus) (n : Count) (o : CoreOut), s.Driven a b n →
    Answers .getI64 s t o → ∃ u p, AnswersOnly .getU64 s u p ∧
      o.status = p.status ∧ o.count = p.count ∧
      (p.status = .ok → ∃ t' o',
        AnswersOnly .zzDec64 (u.setOperands (some p.result) (some b) (some n)) t' o' ∧
        o.result = o'.result))

/-! ## The host's buffer -/

/-- R56: an append is the only write to the buffer that any step makes; every byte already there keeps its place and value. Only a put's statement appends, and at most 10 bytes (R57). That a stand-alone encode appends nothing is the model's choice, not a rule of the spec (DESIGN CHOICE, log entry 10). -/
def Obligations.StepOnlyAppends : Prop :=
  ∀ s t : State, step s = .next t →
    (∃ bs : List Byte, t.buf = Memory.append s.buf bs ∧ bs.length ≤ 10 ∧
      (bs ≠ [] → ∃ operand rest,
        s.program = ⟨.command (some (encode .putU64)) operand, true⟩ :: rest ∨
        s.program = ⟨.command (some (encode .putI64)) operand, true⟩ :: rest)) ∧
    (∀ (k : Nat) (x : Byte), Memory.read s.buf k = some x → Memory.read t.buf k = some x)

/-- R59: a decode or a zig-zag writes no buffer, and run again on the same operands gives the same outputs; a put run again appends again. -/
def Obligations.OnlyPutsWriteTheBuffer : Prop :=
  (∀ (i : Instr) (s t : State) (o : CoreOut), i ≠ .putU64 → i ≠ .putI64 → Answers i s t o →
    BufferKept s t ∧ ∃ u, AnswersOnly i t u o) ∧
  (∀ (i : Instr) (s t u : State), i = .putU64 ∨ i = .putI64 → exec i s = .next t →
    exec i t = .next u → Memory.size s.buf < Memory.size t.buf ∧
      Memory.size u.buf = Memory.size t.buf + (Memory.size t.buf - Memory.size s.buf))

/-- R58: for a get at offset `off`, the host presents min(10, |buf| - off) bytes of its buffer from `off`, 0x00 in every other lane, and changes nothing but the operand ports; an offset beyond the end is refused. What it drives on `opa` is the model's choice and is not stated (log entry 6). -/
def Obligations.GetAtOffsetPresentsBuffer : Prop :=
  ∀ (i : Instr) (s : State) (off : Nat), i = .getU64 ∨ i = .getI64 → Memory.wf s.buf = true →
    (off ≤ Memory.size s.buf → ∃ a b n,
      present i (.buffer off) s = .ok (s.setOperands (some a) (some b) (some n)) ∧
      n.toNat = min 10 (Memory.size s.buf - off) ∧
      (∀ k, k < n.toNat → Memory.read s.buf (off + k) = some (lane b k)) ∧
      (∀ k, n.toNat ≤ k → k < 10 → lane b k = 0x00#8)) ∧
    (Memory.size s.buf < off → present i (.buffer off) s = .error .offsetBeyondBuffer)

/-- A literal in its command's range is presented in the low bits of `opa`, as the u64, i64, iN or uN that the command reads there (R82, R86), and nothing but the operand ports changes; a literal out of range is no statement of the syntax (the model's reading, log entry 8). -/
def Obligations.LiteralIsPresented : Prop :=
  (∀ c ∈ [(Instr.putU64, 64), (.zzDec8, 8), (.zzDec16, 16), (.zzDec32, 32), (.zzDec64, 64),
      (.zzDec128, 128)], ∀ (v : Int) (s : State),
    (0 ≤ v ∧ v < 2 ^ c.2 → ∃ a b n,
      present c.1 (.literal v) s = .ok (s.setOperands (some a) (some b) (some n)) ∧
      ((a.setWidth c.2).toNat : Int) = v) ∧
    (¬ (0 ≤ v ∧ v < 2 ^ c.2) → present c.1 (.literal v) s = .error .illFormedStatement)) ∧
  (∀ c ∈ [(Instr.putI64, 63), (.zzEnc8, 7), (.zzEnc16, 15), (.zzEnc32, 31), (.zzEnc64, 63),
      (.zzEnc128, 127)], ∀ (v : Int) (s : State),
    (-2 ^ c.2 ≤ v ∧ v < 2 ^ c.2 → ∃ a b n,
      present c.1 (.literal v) s = .ok (s.setOperands (some a) (some b) (some n)) ∧
      (a.setWidth (c.2 + 1)).toInt = v) ∧
    (¬ (-2 ^ c.2 ≤ v ∧ v < 2 ^ c.2) → present c.1 (.literal v) s = .error .illFormedStatement))

/-- A decode that follows an encode sees the appended bytes (R61): after a put, the matching get at the old end of the buffer gives the value back, with the same count, for u64 and for i64. -/
def Obligations.GetSeesEarlierPut : Prop :=
  ∀ (s t : State) (a : Wide) (b : Bus) (n : Count) (o : CoreOut), s.Inv → s.Driven a b n →
    (Answers .putU64 s t o → ∃ t' u p, present .getU64 (.buffer (Memory.size s.buf)) t = .ok t' ∧
      AnswersOnly .getU64 t' u p ∧ p.status = .ok ∧
      p.result = (a.setWidth 64).setWidth 128 ∧ p.count = o.count) ∧
    (Answers .putI64 s t o → ∃ t' u p, present .getI64 (.buffer (Memory.size s.buf)) t = .ok t' ∧
      AnswersOnly .getI64 t' u p ∧ p.status = .ok ∧
      p.result = (a.setWidth 64).setWidth 128 ∧ p.count = o.count)

/-! ## The stand-alone units -/

/-- The stand-alone units complete on driven inputs and drive what their rules give (R25, R26, R28, R29): the encoder as `put_u64` lays it out, the decoder what `vz_core` gives for `get_u64`, zig-zag the integer functions of R101 and R102 at its own width; each leaves `vz_core`, the other units, the other instances, the buffer and the program as they are. That a stand-alone encode leaves the buffer alone, and that there is one instance of each unit and width, is the model's choice (DESIGN CHOICE, log entry 10). -/
def Obligations.StandAloneUnitsComplete : Prop :=
  ∀ s : State,
    (∀ v : Value, ∃ t e, issue (.encoder (some v)) s = .next t ∧
      t = s.withUnits { s.units with encValue := some v, encOut := some e } ∧
      IsVarintLength v.toNat e.len.toNat ∧ HoldsEncoding e.bytes v.toNat e.len.toNat) ∧
    (∀ (a : Wide) (b : Bus) (n : Count), ∃ t d, issue (.decoder (some b) (some n)) s = .next t ∧
      t = s.withUnits { s.units with decBytes := some b, decAvail := some n, decOut := some d } ∧
      d.status = (vzCore (encode .getU64) a b n).status ∧
      d.count = (vzCore (encode .getU64) a b n).count ∧
      (d.status = .ok → d.value.setWidth 128 = (vzCore (encode .getU64) a b n).result)) ∧
    (∀ (w : ZzWidth) (x : BitVec w.bits), ∃ t y, issue (.zigzagEncoder w (some x)) s = .next t ∧
      t = s.withUnits { s.units with zzeIn := t.units.zzeIn, zzeOut := t.units.zzeOut } ∧
      t.units.zzeIn.get w = some x ∧ t.units.zzeOut.get w = some y ∧
      (y.toNat : Int) = zigzagInt x.toInt ∧
      ∀ w', w' ≠ w → t.units.zzeIn.get w' = s.units.zzeIn.get w' ∧
        t.units.zzeOut.get w' = s.units.zzeOut.get w') ∧
    (∀ (w : ZzWidth) (u : BitVec w.bits), ∃ t y, issue (.zigzagDecoder w (some u)) s = .next t ∧
      t = s.withUnits { s.units with zzdIn := t.units.zzdIn, zzdOut := t.units.zzdOut } ∧
      t.units.zzdIn.get w = some u ∧ t.units.zzdOut.get w = some y ∧
      y.toInt = zagzigInt u.toNat ∧
      ∀ w', w' ≠ w → t.units.zzdIn.get w' = s.units.zzdIn.get w' ∧
        t.units.zzdOut.get w' = s.units.zzdOut.get w')

/-! ## The other operand forms -/

/-- `get_u64 [b0, ..., bk]` and `get_i64` (R86) present the sequence itself: `in_avail` = min(10, |data|), byte k in lane k below it, 0x00 in every other lane (R58, R139), and nothing but the operand ports changes. A form that R86 does not have for a command is refused (the model's reading, log entry 8); what is driven on `opa` is the model's choice and is not stated (log entry 6). -/
def Obligations.LiteralBytesArePresented : Prop :=
  (∀ (i : Instr) (s : State) (data : List Byte), i = .getU64 ∨ i = .getI64 → ∃ a b n,
    present i (.bytes data) s = .ok (s.setOperands (some a) (some b) (some n)) ∧
    n.toNat = min 10 data.length ∧
    (∀ k, k < n.toNat → data[k]? = some (lane b k)) ∧
    (∀ k, n.toNat ≤ k → k < 10 → lane b k = 0x00#8)) ∧
  (∀ (i : Instr) (s : State), i ≠ .getU64 → i ≠ .getI64 →
    (∀ data : List Byte, present i (.bytes data) s = .error .illFormedStatement) ∧
    (∀ off : Nat, present i (.buffer off) s = .error .illFormedStatement)) ∧
  (∀ (i : Instr) (s : State) (v : Int), i = .getU64 ∨ i = .getI64 →
    present i (.literal v) s = .error .illFormedStatement)
end

