-- ==== Sys2Proof/Laws/Lanes.lean ====
section
/-! SUPPORT. Byte lanes: what a packed bus holds in each lane, and that the lanes of a packed sequence are the sequence. -/

namespace Sys2Proof.Machine

theorem lane_getLsbD (bus : Bus) (k i : Nat) :
    (lane bus k).getLsbD i = (decide (i < 8) && bus.getLsbD (8 * k + i)) := by
  simp [lane, BitVec.getLsbD_extractLsb']

theorem lane_packLanes_zero (b : Byte) (bs : List Byte) : lane (packLanes (b :: bs)) 0 = b := by
  apply BitVec.eq_of_getLsbD_eq
  intro i hi
  have h80 : i < 80 := by omega
  rw [lane_getLsbD, packLanes, BitVec.getLsbD_or, BitVec.getLsbD_shiftLeft, BitVec.getLsbD_setWidth]
  simp [hi, h80]

theorem lane_packLanes_succ (b : Byte) (bs : List Byte) (k : Nat) (h : k + 1 < 10) :
    lane (packLanes (b :: bs)) (k + 1) = lane (packLanes bs) k := by
  apply BitVec.eq_of_getLsbD_eq
  intro i hi
  have h80 : 8 * (k + 1) + i < 80 := by omega
  have h8 : ¬ 8 * (k + 1) + i < 8 := by omega
  have hsub : 8 * (k + 1) + i - 8 = 8 * k + i := by omega
  have hb : b.getLsbD (8 * (k + 1) + i) = false := BitVec.getLsbD_of_ge _ _ (by omega)
  rw [lane_getLsbD, lane_getLsbD, packLanes, BitVec.getLsbD_or, BitVec.getLsbD_shiftLeft,
    BitVec.getLsbD_setWidth, hb, hsub]
  simp [hi, h80, h8]

/-- Lane k of a packed sequence is its byte k, or 0x00 above its end (R50, R132). -/
theorem lane_packLanes (bs : List Byte) (k : Nat) (h : k < 10) :
    lane (packLanes bs) k = bs.getD k 0#8 := by
  induction bs generalizing k with
  | nil => simp [packLanes, lane]
  | cons b bs ih =>
    cases k with
    | zero => simpa using lane_packLanes_zero b bs
    | succ k =>
      rw [lane_packLanes_succ b bs k h, ih k (by omega)]
      simp

@[simp] theorem length_lanesFrom (bus : Bus) (start n : Nat) : (lanesFrom bus start n).length = n := by
  induction n generalizing start with
  | zero => rfl
  | succ n ih => simp [lanesFrom, ih]

theorem getElem?_lanesFrom (bus : Bus) (start n k : Nat) (h : k < n) :
    (lanesFrom bus start n)[k]? = some (lane bus (start + k)) := by
  induction n generalizing start k with
  | zero => omega
  | succ n ih =>
    cases k with
    | zero => simp [lanesFrom]
    | succ k =>
      have hk := ih (start + 1) k (by omega)
      simpa [lanesFrom, Nat.add_comm, Nat.add_left_comm] using hk

/-- The lanes of a packed sequence of at most ten bytes are the sequence. -/
theorem lanesFrom_packLanes (bs : List Byte) (h : bs.length ≤ 10) :
    lanesFrom (packLanes bs) 0 bs.length = bs := by
  apply List.ext_getElem?
  intro k
  by_cases hk : k < bs.length
  · rw [getElem?_lanesFrom _ _ _ _ hk, lane_packLanes _ _ (by omega)]
    simp [hk]
  · rw [List.getElem?_eq_none (by simpa using Nat.le_of_not_lt hk),
      List.getElem?_eq_none (Nat.le_of_not_lt hk)]

end Sys2Proof.Machine
end

