-- ==== Sys2Proof/Laws/Memory.lean ====
section
/-! SUPPORT. The host buffer: an append keeps the canonical form, leaves every earlier byte, and stores its bytes at the end (spec 20_memory.md R55, R56). -/

namespace Sys2Proof.Machine

@[simp] theorem length_cellsFrom (a : Nat) (bs : List Byte) : (cellsFrom a bs).length = bs.length := by
  induction bs generalizing a with
  | nil => rfl
  | cons b bs ih => simp [cellsFrom, ih]

@[simp] theorem Memory.size_append (m : Memory) (bs : List Byte) :
    Memory.size (Memory.append m bs) = Memory.size m + bs.length := by
  simp [Memory.size, Memory.append]

theorem denseFrom_cellsFrom (a : Nat) (bs : List Byte) : denseFrom a (cellsFrom a bs) = true := by
  induction bs generalizing a with
  | nil => rfl
  | cons b bs ih => simp [cellsFrom, denseFrom, ih]

theorem denseFrom_append (a : Nat) (m m' : Memory) :
    denseFrom a (m ++ m') = (denseFrom a m && denseFrom (a + m.length) m') := by
  induction m generalizing a with
  | nil => simp [denseFrom]
  | cons c m ih =>
    obtain ⟨k, b⟩ := c
    simp [denseFrom, ih, Nat.add_right_comm a, ← Nat.add_assoc, Bool.and_assoc]

/-- An append keeps the canonical form. -/
theorem Memory.wf_append (m : Memory) (bs : List Byte) (h : Memory.wf m = true) :
    Memory.wf (Memory.append m bs) = true := by
  have hm : denseFrom 0 m = true := h
  simp [Memory.wf, Memory.append, denseFrom_append, hm, Memory.size, denseFrom_cellsFrom]

/-- The empty buffer has the canonical form. -/
theorem Memory.wf_nil : Memory.wf [] = true := rfl

theorem Memory.read_append_left (m m' : Memory) (a : Nat) (b : Byte) (h : Memory.read m a = some b) :
    Memory.read (m ++ m') a = some b := by
  induction m with
  | nil => simp [Memory.read, Memory.unlisted] at h
  | cons c m ih =>
    obtain ⟨k, x⟩ := c
    simp only [Memory.read, List.cons_append] at h ⊢
    split at h
    · simp [*]
    · simp [*, ih h]

theorem Memory.read_append_right (m m' : Memory) (a : Nat) (h : Memory.read m a = none) :
    Memory.read (m ++ m') a = Memory.read m' a := by
  induction m with
  | nil => rfl
  | cons c m ih =>
    obtain ⟨k, x⟩ := c
    simp only [Memory.read, List.cons_append] at h ⊢
    split at h
    · simp at h
    · simp [*, ih h]

/-- Byte k of a sequence of cells. -/
theorem Memory.read_cellsFrom (a : Nat) (bs : List Byte) (k : Nat) :
    Memory.read (cellsFrom a bs) (a + k) = bs[k]? := by
  induction bs generalizing a k with
  | nil => simp [cellsFrom, Memory.read, Memory.unlisted]
  | cons b bs ih =>
    cases k with
    | zero => simp [cellsFrom, Memory.read]
    | succ k =>
      have h := ih (a + 1) k
      have hne : ¬ a = a + (k + 1) := by omega
      have heq : a + 1 + k = a + (k + 1) := by omega
      simpa [cellsFrom, Memory.read, hne, heq] using h

theorem Memory.read_cellsFrom_lt (a : Nat) (bs : List Byte) (j : Nat) (h : j < a) :
    Memory.read (cellsFrom a bs) j = none := by
  induction bs generalizing a with
  | nil => rfl
  | cons b bs ih =>
    have hne : ¬ a = j := by omega
    simpa [cellsFrom, Memory.read, hne] using ih (a + 1) (by omega)

theorem read_denseFrom (a : Nat) (m : Memory) (h : denseFrom a m = true) (k : Nat) :
    Memory.read m (a + k) = (m[k]?).map Prod.snd := by
  induction m generalizing a k with
  | nil => simp [Memory.read, Memory.unlisted]
  | cons c m ih =>
    obtain ⟨j, b⟩ := c
    simp only [denseFrom, Bool.and_eq_true, beq_iff_eq] at h
    obtain ⟨rfl, h⟩ := h
    cases k with
    | zero => simp [Memory.read]
    | succ k =>
      have hk := ih (j + 1) h k
      have hne : ¬ j = j + (k + 1) := by omega
      have heq : j + 1 + k = j + (k + 1) := by omega
      simpa [Memory.read, hne, heq] using hk

/-- In canonical form, index k holds the k-th byte. -/
theorem Memory.read_wf (m : Memory) (h : Memory.wf m = true) (k : Nat) :
    Memory.read m k = (m[k]?).map Prod.snd := by
  simpa using read_denseFrom 0 m h k

/-- In canonical form, no index at or above the size holds a byte. -/
theorem Memory.read_wf_ge (m : Memory) (h : Memory.wf m = true) (k : Nat) (hk : Memory.size m ≤ k) :
    Memory.read m k = none := by
  rw [Memory.read_wf m h, List.getElem?_eq_none hk]
  rfl

/-- An append leaves every index outside the appended bytes. -/
theorem Memory.read_append_outside (m : Memory) (bs : List Byte) (a : Nat)
    (h : ¬ (Memory.size m ≤ a ∧ a < Memory.size m + bs.length)) :
    Memory.read (Memory.append m bs) a = Memory.read m a := by
  cases hr : Memory.read m a with
  | some b => exact Memory.read_append_left _ _ _ _ hr
  | none =>
    rw [Memory.append, Memory.read_append_right _ _ _ hr]
    by_cases hlt : a < Memory.size m
    · exact Memory.read_cellsFrom_lt _ _ _ hlt
    · obtain ⟨k, rfl⟩ : ∃ k, a = Memory.size m + k := ⟨a - Memory.size m, by omega⟩
      rw [Memory.read_cellsFrom, List.getElem?_eq_none (by omega)]

/-- An append stores byte k of the sequence at index size + k. -/
theorem Memory.read_append_inside (m : Memory) (h : Memory.wf m = true) (bs : List Byte) (k : Nat) :
    Memory.read (Memory.append m bs) (Memory.size m + k) = bs[k]? := by
  rw [Memory.append, Memory.read_append_right _ _ _ (Memory.read_wf_ge m h _ (by omega)),
    Memory.read_cellsFrom]

/-- All a grow can answer: within the bound it appends, beyond it there is no buffer (R57). -/
theorem Memory.grow_cases (m : Memory) (limit : Option Nat) (bs : List Byte) :
    (fitsLimit limit (Memory.size m + bs.length) = true ∧
      Memory.grow m limit bs = some (Memory.append m bs)) ∨
    (fitsLimit limit (Memory.size m + bs.length) = false ∧ Memory.grow m limit bs = none) := by
  cases h : fitsLimit limit (Memory.size m + bs.length) <;> simp [Memory.grow, h]

/-- A grow keeps the canonical form and the bound. -/
theorem Memory.grow_wf (m m' : Memory) (limit : Option Nat) (bs : List Byte)
    (hm : Memory.wf m = true) (h : Memory.grow m limit bs = some m') :
    Memory.wf m' = true ∧ fitsLimit limit (Memory.size m') = true := by
  rcases Memory.grow_cases m limit bs with ⟨hf, hg⟩ | ⟨-, hg⟩
  · obtain rfl : Memory.append m bs = m' := by simpa [hg] using h
    exact ⟨Memory.wf_append m bs hm, by simpa using hf⟩
  · simp [hg] at h

/-- Reading n bytes answers exactly when each one reads. -/
theorem Memory.readBytes_some (m : Memory) (a n : Nat)
    (h : ∀ k, k < n → (Memory.read m (a + k)).isSome) :
    ∃ bs, Memory.readBytes m a n = some bs ∧ bs.length = n ∧
      ∀ k, k < n → Memory.read m (a + k) = bs[k]? := by
  induction n generalizing a with
  | zero => exact ⟨[], rfl, rfl, by omega⟩
  | succ n ih =>
    obtain ⟨b, hb⟩ := Option.isSome_iff_exists.mp (h 0 (by omega))
    obtain ⟨bs, hbs, hlen, hread⟩ := ih (a + 1) (fun k hk => by
      have := h (k + 1) (by omega)
      rwa [show a + (k + 1) = a + 1 + k by omega] at this)
    refine ⟨b :: bs, ?_, by simp [hlen], ?_⟩
    · simp only [Nat.add_zero] at hb
      simp [Memory.readBytes, hb, hbs]
    · intro k hk
      cases k with
      | zero => simpa using hb
      | succ k =>
        rw [show a + (k + 1) = a + 1 + k by omega, hread k (by omega)]
        simp

end Sys2Proof.Machine
end

