-- ==== Sys2Proof/Laws/PerInstr.lean ====
section
/-! SUPPORT. Per instruction: the word that the table of spec 30_encoding.md R81 gives it has the `op` of R79 and the `zw` of R80 in the fields of R78. -/

namespace Sys2Proof.Laws.Fields

/-- `op` by R79. -/
def opValue : Instr → Nat
  | .putU64 => 0
  | .putI64 => 1
  | .getU64 => 2
  | .getI64 => 3
  | .zzEnc8 => 4
  | .zzEnc16 => 4
  | .zzEnc32 => 4
  | .zzEnc64 => 4
  | .zzEnc128 => 4
  | .zzDec8 => 5
  | .zzDec16 => 5
  | .zzDec32 => 5
  | .zzDec64 => 5
  | .zzDec128 => 5

/-- `zw` by R80; 0b000 for the varint commands. -/
def zwValue : Instr → Nat
  | .putU64 => 0
  | .putI64 => 0
  | .getU64 => 0
  | .getI64 => 0
  | .zzEnc8 => 0
  | .zzEnc16 => 1
  | .zzEnc32 => 2
  | .zzEnc64 => 3
  | .zzEnc128 => 4
  | .zzDec8 => 0
  | .zzDec16 => 1
  | .zzDec32 => 2
  | .zzDec64 => 3
  | .zzDec128 => 4

/-- The fields of the instruction's word. -/
def Statement (i : Instr) : Prop :=
  (opField (encode i)).toNat = opValue i ∧ (zwField (encode i)).toNat = zwValue i

theorem putU64 : Statement .putU64 := ⟨rfl, rfl⟩
theorem putI64 : Statement .putI64 := ⟨rfl, rfl⟩
theorem getU64 : Statement .getU64 := ⟨rfl, rfl⟩
theorem getI64 : Statement .getI64 := ⟨rfl, rfl⟩
theorem zzEnc8 : Statement .zzEnc8 := ⟨rfl, rfl⟩
theorem zzEnc16 : Statement .zzEnc16 := ⟨rfl, rfl⟩
theorem zzEnc32 : Statement .zzEnc32 := ⟨rfl, rfl⟩
theorem zzEnc64 : Statement .zzEnc64 := ⟨rfl, rfl⟩
theorem zzEnc128 : Statement .zzEnc128 := ⟨rfl, rfl⟩
theorem zzDec8 : Statement .zzDec8 := ⟨rfl, rfl⟩
theorem zzDec16 : Statement .zzDec16 := ⟨rfl, rfl⟩
theorem zzDec32 : Statement .zzDec32 := ⟨rfl, rfl⟩
theorem zzDec64 : Statement .zzDec64 := ⟨rfl, rfl⟩
theorem zzDec128 : Statement .zzDec128 := ⟨rfl, rfl⟩

end Sys2Proof.Laws.Fields
end

