-- ==== Sys2Proof/Laws/State.lean ====
section
/-! SUPPORT. One lemma per field of State and per update of it, so that no later proof unfolds a record update. -/

namespace Sys2Proof.Machine

@[simp] theorem State.setOperands_cmd (s : State) (a : Option Wide) (b : Option Bus) (n : Option Count) : (s.setOperands a b n).cmd = s.cmd := rfl
@[simp] theorem State.setOperands_opa (s : State) (a : Option Wide) (b : Option Bus) (n : Option Count) : (s.setOperands a b n).opa = a := rfl
@[simp] theorem State.setOperands_inBytes (s : State) (a : Option Wide) (b : Option Bus) (n : Option Count) : (s.setOperands a b n).inBytes = b := rfl
@[simp] theorem State.setOperands_inAvail (s : State) (a : Option Wide) (b : Option Bus) (n : Option Count) : (s.setOperands a b n).inAvail = n := rfl
@[simp] theorem State.setOperands_coreOut (s : State) (a : Option Wide) (b : Option Bus) (n : Option Count) : (s.setOperands a b n).coreOut = s.coreOut := rfl
@[simp] theorem State.setOperands_units (s : State) (a : Option Wide) (b : Option Bus) (n : Option Count) : (s.setOperands a b n).units = s.units := rfl
@[simp] theorem State.setOperands_buf (s : State) (a : Option Wide) (b : Option Bus) (n : Option Count) : (s.setOperands a b n).buf = s.buf := rfl
@[simp] theorem State.setOperands_bufLimit (s : State) (a : Option Wide) (b : Option Bus) (n : Option Count) : (s.setOperands a b n).bufLimit = s.bufLimit := rfl
@[simp] theorem State.setOperands_program (s : State) (a : Option Wide) (b : Option Bus) (n : Option Count) : (s.setOperands a b n).program = s.program := rfl

@[simp] theorem State.drive_cmd (s : State) (i : Instr) (o : CoreOut) : (s.drive i o).cmd = some (encode i) := rfl
@[simp] theorem State.drive_opa (s : State) (i : Instr) (o : CoreOut) : (s.drive i o).opa = s.opa := rfl
@[simp] theorem State.drive_inBytes (s : State) (i : Instr) (o : CoreOut) : (s.drive i o).inBytes = s.inBytes := rfl
@[simp] theorem State.drive_inAvail (s : State) (i : Instr) (o : CoreOut) : (s.drive i o).inAvail = s.inAvail := rfl
@[simp] theorem State.drive_coreOut (s : State) (i : Instr) (o : CoreOut) : (s.drive i o).coreOut = some o := rfl
@[simp] theorem State.drive_units (s : State) (i : Instr) (o : CoreOut) : (s.drive i o).units = s.units := rfl
@[simp] theorem State.drive_buf (s : State) (i : Instr) (o : CoreOut) : (s.drive i o).buf = s.buf := rfl
@[simp] theorem State.drive_bufLimit (s : State) (i : Instr) (o : CoreOut) : (s.drive i o).bufLimit = s.bufLimit := rfl
@[simp] theorem State.drive_program (s : State) (i : Instr) (o : CoreOut) : (s.drive i o).program = s.program := rfl

@[simp] theorem State.withBuf_cmd (s : State) (m : Memory) : (s.withBuf m).cmd = s.cmd := rfl
@[simp] theorem State.withBuf_opa (s : State) (m : Memory) : (s.withBuf m).opa = s.opa := rfl
@[simp] theorem State.withBuf_inBytes (s : State) (m : Memory) : (s.withBuf m).inBytes = s.inBytes := rfl
@[simp] theorem State.withBuf_inAvail (s : State) (m : Memory) : (s.withBuf m).inAvail = s.inAvail := rfl
@[simp] theorem State.withBuf_coreOut (s : State) (m : Memory) : (s.withBuf m).coreOut = s.coreOut := rfl
@[simp] theorem State.withBuf_units (s : State) (m : Memory) : (s.withBuf m).units = s.units := rfl
@[simp] theorem State.withBuf_buf (s : State) (m : Memory) : (s.withBuf m).buf = m := rfl
@[simp] theorem State.withBuf_bufLimit (s : State) (m : Memory) : (s.withBuf m).bufLimit = s.bufLimit := rfl
@[simp] theorem State.withBuf_program (s : State) (m : Memory) : (s.withBuf m).program = s.program := rfl

@[simp] theorem State.withUnits_cmd (s : State) (u : Units) : (s.withUnits u).cmd = s.cmd := rfl
@[simp] theorem State.withUnits_opa (s : State) (u : Units) : (s.withUnits u).opa = s.opa := rfl
@[simp] theorem State.withUnits_inBytes (s : State) (u : Units) : (s.withUnits u).inBytes = s.inBytes := rfl
@[simp] theorem State.withUnits_inAvail (s : State) (u : Units) : (s.withUnits u).inAvail = s.inAvail := rfl
@[simp] theorem State.withUnits_coreOut (s : State) (u : Units) : (s.withUnits u).coreOut = s.coreOut := rfl
@[simp] theorem State.withUnits_units (s : State) (u : Units) : (s.withUnits u).units = u := rfl
@[simp] theorem State.withUnits_buf (s : State) (u : Units) : (s.withUnits u).buf = s.buf := rfl
@[simp] theorem State.withUnits_bufLimit (s : State) (u : Units) : (s.withUnits u).bufLimit = s.bufLimit := rfl
@[simp] theorem State.withUnits_program (s : State) (u : Units) : (s.withUnits u).program = s.program := rfl

@[simp] theorem State.withProgram_cmd (s : State) (p : List Statement) : (s.withProgram p).cmd = s.cmd := rfl
@[simp] theorem State.withProgram_opa (s : State) (p : List Statement) : (s.withProgram p).opa = s.opa := rfl
@[simp] theorem State.withProgram_inBytes (s : State) (p : List Statement) : (s.withProgram p).inBytes = s.inBytes := rfl
@[simp] theorem State.withProgram_inAvail (s : State) (p : List Statement) : (s.withProgram p).inAvail = s.inAvail := rfl
@[simp] theorem State.withProgram_coreOut (s : State) (p : List Statement) : (s.withProgram p).coreOut = s.coreOut := rfl
@[simp] theorem State.withProgram_units (s : State) (p : List Statement) : (s.withProgram p).units = s.units := rfl
@[simp] theorem State.withProgram_buf (s : State) (p : List Statement) : (s.withProgram p).buf = s.buf := rfl
@[simp] theorem State.withProgram_bufLimit (s : State) (p : List Statement) : (s.withProgram p).bufLimit = s.bufLimit := rfl
@[simp] theorem State.withProgram_program (s : State) (p : List Statement) : (s.withProgram p).program = p := rfl

@[simp] theorem ZzPorts.get_w8 (p : ZzPorts) : p.get .w8 = p.n8 := rfl
@[simp] theorem ZzPorts.get_w16 (p : ZzPorts) : p.get .w16 = p.n16 := rfl
@[simp] theorem ZzPorts.get_w32 (p : ZzPorts) : p.get .w32 = p.n32 := rfl
@[simp] theorem ZzPorts.get_w64 (p : ZzPorts) : p.get .w64 = p.n64 := rfl
@[simp] theorem ZzPorts.get_w128 (p : ZzPorts) : p.get .w128 = p.n128 := rfl

/-- The instance that is set carries the value. -/
@[simp] theorem ZzPorts.get_set_same (p : ZzPorts) (w : ZzWidth) (x : BitVec w.bits) :
    (p.set w x).get w = some x := by
  cases w <;> rfl

/-- Every other instance's port stays. -/
theorem ZzPorts.get_set_other (p : ZzPorts) {w w' : ZzWidth} (x : BitVec w.bits) (h : w' ≠ w) :
    (p.set w x).get w' = p.get w' := by
  cases w <;> cases w' <;> first | rfl | exact absurd rfl h

end Sys2Proof.Machine
end

