-- ==== Sys2Proof/Laws/Varint.lean ====
section
/-! SUPPORT. What the varint encoder and decoder do, each said once (spec 30_encoding.md R71, R72; 41_varint.md R130 to R138). -/

namespace Sys2Proof.Machine

/-! ## Bytes -/

theorem toNat_terminalByte (p : BitVec 7) : (terminalByte p).toNat = p.toNat := by
  have := p.isLt
  simp only [terminalByte, BitVec.toNat_setWidth]
  omega

theorem toNat_continuedByte (p : BitVec 7) : (continuedByte p).toNat = p.toNat + 128 := by
  have hp := p.isLt
  have h : 2 ^ 7 ||| p.toNat = 2 ^ 7 + p.toNat := by
    simpa using (Nat.two_pow_add_eq_or_of_lt hp 1).symm
  simp only [continuedByte, BitVec.toNat_or, BitVec.toNat_setWidth, BitVec.toNat_ofNat]
  rw [Nat.mod_eq_of_lt (show p.toNat < 2 ^ 8 by omega)]
  simpa [Nat.add_comm] using h

theorem continuation_eq (b : Byte) : continuation b = decide (128 ≤ b.toNat) := by
  have hb := b.isLt
  have h : continuation b = b.msb := by simp [continuation, BitVec.msb_eq_getLsbD_last]
  rw [h, BitVec.msb_eq_decide]

theorem toNat_payload (b : Byte) : (payload b).toNat = b.toNat % 128 := by
  simp [payload, BitVec.extractLsb'_toNat]

theorem toNat_group (v : Value) : (v.extractLsb' 0 7).toNat = v.toNat % 128 := by
  simp [BitVec.extractLsb'_toNat]

theorem toNat_dropGroup (v : Value) : (v >>> 7).toNat = v.toNat / 128 := by
  simp [BitVec.toNat_ushiftRight, Nat.shiftRight_eq_div_pow]

/-! ## The encoder -/

/-- What the encoder's loop emits, for a value that fits in its passes: a length in range, and byte k of the encoding. -/
theorem encodeLoop_spec (fuel : Nat) (v : Value) (h : v.toNat < 2 ^ (7 * (fuel + 1))) :
    1 ≤ (encodeLoop fuel v).length ∧ (encodeLoop fuel v).length ≤ fuel + 1 ∧
    v.toNat < 2 ^ (7 * (encodeLoop fuel v).length) ∧
    ((encodeLoop fuel v).length = 1 ∨ 2 ^ (7 * ((encodeLoop fuel v).length - 1)) ≤ v.toNat) ∧
    ∀ k, k < (encodeLoop fuel v).length →
      ((encodeLoop fuel v).getD k 0#8).toNat = encodedByte v.toNat (encodeLoop fuel v).length k := by
  have single (hv : v.toNat < 128) (k : Nat) (hk : k < 1) :
      (([terminalByte (v.extractLsb' 0 7)]).getD k 0#8).toNat = encodedByte v.toNat 1 k := by
    obtain rfl : k = 0 := by omega
    simp [toNat_terminalByte, encodedByte]
  induction fuel generalizing v with
  | zero =>
    have hv : v.toNat < 128 := by simpa using h
    simpa [encodeLoop, hv] using single hv
  | succ fuel ih =>
    simp only [encodeLoop]
    split
    next hge =>
      have hge' : 128 ≤ v.toNat := by simpa [BitVec.le_def] using hge
      have hpow : 2 ^ (7 * (fuel + 1 + 1)) = 128 * 2 ^ (7 * (fuel + 1)) := by
        rw [show 7 * (fuel + 1 + 1) = 7 + 7 * (fuel + 1) by omega, Nat.pow_add]
      have hdrop := toNat_dropGroup v
      obtain ⟨hpos, hle, hfits, hleast, hbyte⟩ := ih (v >>> 7) (by omega) (fun hv k hk => by
        obtain rfl : k = 0 := by omega
        simp [toNat_terminalByte, encodedByte])
      rw [hdrop] at hfits hleast hbyte
      generalize encodeLoop fuel (v >>> 7) = rest at *
      have hup : 2 ^ (7 * (rest.length + 1)) = 128 * 2 ^ (7 * rest.length) := by
        rw [show 7 * (rest.length + 1) = 7 + 7 * rest.length by omega, Nat.pow_add]
      refine ⟨by simp, by simpa using hle, ?_, Or.inr ?_, ?_⟩
      · simp only [List.length_cons, hup]
        omega
      · simp only [List.length_cons, Nat.add_sub_cancel]
        rcases hleast with h1 | hleast
        · simpa [h1] using hge'
        · have hstep : 2 ^ (7 * rest.length) = 128 * 2 ^ (7 * (rest.length - 1)) := by
            rw [show 7 * rest.length = 7 + 7 * (rest.length - 1) by omega, Nat.pow_add]
          omega
      · intro k hk
        cases k with
        | zero =>
          have : 0 + 1 < rest.length + 1 := by omega
          simp [toNat_continuedByte, encodedByte, this]
        | succ k =>
          have hk' : k < rest.length := by simpa using hk
          have hshift : v.toNat / 128 / 2 ^ (7 * k) = v.toNat / 2 ^ (7 * (k + 1)) := by
            rw [Nat.div_div_eq_div_mul, show 7 * (k + 1) = 7 + 7 * k by omega, Nat.pow_add]
          simp only [List.getD_cons_succ, hbyte k hk', encodedByte, hshift, List.length_cons,
            Nat.add_lt_add_iff_right]
    next hlt =>
      have hv : v.toNat < 128 := by simpa [BitVec.le_def] using hlt
      simpa [hv] using single hv

/-- The encoder's length is L(v) (R72, R131). -/
theorem isVarintLength_varintBytes (v : Value) :
    IsVarintLength v.toNat (varintBytes v).length := by
  obtain ⟨h1, h2, h3, h4, -⟩ := encodeLoop_spec 9 v (by have := v.isLt; omega)
  exact ⟨h1, h2, h3, h4⟩

/-- L(v) is unique. -/
theorem IsVarintLength.unique {v len len' : Nat} (h : IsVarintLength v len)
    (h' : IsVarintLength v len') : len = len' := by
  have key {a b : Nat} (ha : IsVarintLength v a) (hb : IsVarintLength v b) : ¬ a < b := by
    intro hab
    have hpow : 2 ^ (7 * a) ≤ 2 ^ (7 * (b - 1)) := Nat.pow_le_pow_right (by omega) (by omega)
    have := ha.fits
    have := ha.pos
    rcases hb.least with h1 | h1 <;> omega
  have := key h h'
  have := key h' h
  omega

theorem varintEncoder_len (v : Value) : (varintEncoder v).len.toNat = (varintBytes v).length := by
  have := (isVarintLength_varintBytes v).le
  simp only [varintEncoder, BitVec.toNat_ofNat]
  omega

/-- The encoder's lanes hold the encoding of its value (R51, R130). -/
theorem varintEncoder_holds (v : Value) :
    HoldsEncoding (varintEncoder v).bytes v.toNat (varintBytes v).length := by
  intro k hk
  have hle := (isVarintLength_varintBytes v).le
  obtain ⟨-, -, -, -, hbyte⟩ := encodeLoop_spec 9 v (by have := v.isLt; omega)
  rw [varintEncoder, lane_packLanes _ _ (by omega)]
  exact hbyte k hk

/-- The encoder's valid lanes are the bytes of `put_u64` (R57). -/
theorem lanesFrom_varintEncoder (v : Value) :
    lanesFrom (varintEncoder v).bytes 0 (varintEncoder v).len.toNat = varintBytes v := by
  rw [varintEncoder_len]
  exact lanesFrom_packLanes _ (isVarintLength_varintBytes v).le

/-- Lanes at or above the length are 0x00 (R132; log entry 13: no statement for the provers rests on this). -/
theorem varintEncoder_above (v : Value) (k : Nat) (hk : (varintBytes v).length ≤ k) (h10 : k < 10) :
    lane (varintEncoder v).bytes k = 0#8 := by
  rw [varintEncoder, lane_packLanes _ _ h10]
  simp [List.getD, hk]

/-! ## The decoder -/

@[simp] theorem byteLimit_eq : byteLimit = 10 := rfl

theorem usableCount_eq (avail : Count) : usableCount avail = min avail.toNat 10 := rfl

theorem usableCount_le (avail : Count) : usableCount avail ≤ 10 := Nat.min_le_right _ _

theorem accumulate_denoted (bus : Bus) (read : Nat) :
    accumulate (denoted bus read) (lane bus read) read = denoted bus (read + 1) := rfl

/-- The loop stops at the first terminal byte it reads, with the value the bytes so far denote (R136). -/
theorem decodeLoop_terminal (bus : Bus) (left read t : Nat) (hr : read ≤ t) (ht : t < read + left)
    (hbefore : ∀ k, read ≤ k → k < t → continuation (lane bus k) = true)
    (hterm : continuation (lane bus t) = false) :
    decodeLoop bus left read (denoted bus read) = .done (denoted bus (t + 1)) (t + 1) := by
  induction left generalizing read with
  | zero => omega
  | succ left ih =>
    rw [decodeLoop, accumulate_denoted]
    by_cases heq : read = t
    · subst heq
      simp [hterm]
    · rw [if_pos (hbefore read (Nat.le_refl _) (by omega))]
      exact ih (read + 1) (by omega) (by omega) (fun k hk => hbefore k (by omega))

/-- If every byte has bit 7 set, the loop fails with the bytes consumed (R137, R138). -/
theorem decodeLoop_continued (bus : Bus) (left read : Nat) (acc : Value)
    (hall : ∀ k, read ≤ k → k < read + left → continuation (lane bus k) = true) :
    decodeLoop bus left read acc =
      if read + left = byteLimit then .overflow (read + left) else .shortOfData (read + left) := by
  induction left generalizing read acc with
  | zero => rfl
  | succ left ih =>
    rw [decodeLoop, if_pos (hall read (Nat.le_refl _) (by omega)),
      ih (read + 1) _ (fun k hk hk' => hall k (by omega) (by omega))]
    rw [show read + 1 + left = read + (left + 1) by omega]

/-- A terminal byte among the bytes presented: the decode is done there (R136). -/
theorem decodeLanes_terminal (bus : Bus) (avail : Count) (t : Nat) (ht : t < usableCount avail)
    (h : FirstTerminal bus t) :
    decodeLanes bus avail = .done (denoted bus (t + 1)) (t + 1) :=
  decodeLoop_terminal bus (usableCount avail) 0 t (Nat.zero_le _) (by omega)
    (fun k _ hk => h.before k hk) h.terminal

/-- No terminal byte among the bytes presented: the decode fails (R137, R138). -/
theorem decodeLanes_continued (bus : Bus) (avail : Count)
    (h : AllContinued bus (usableCount avail)) :
    decodeLanes bus avail =
      if usableCount avail = 10 then .overflow 10 else .shortOfData (usableCount avail) := by
  rw [decodeLanes, decodeLoop_continued bus _ 0 _ (fun k _ hk => h k (by omega))]
  simp only [Nat.zero_add, byteLimit_eq]
  split
  next heq => rw [heq]
  next => rfl

/-- Of the bytes presented, either a first one is terminal or all are continued. -/
theorem firstTerminal_or_allContinued (bus : Bus) (n : Nat) :
    (∃ t, t < n ∧ FirstTerminal bus t) ∨ AllContinued bus n := by
  induction n with
  | zero => exact Or.inr (fun k hk => by omega)
  | succ n ih =>
    rcases ih with ⟨t, ht, hft⟩ | hall
    · exact Or.inl ⟨t, by omega, hft⟩
    · cases hc : continuation (lane bus n) with
      | false => exact Or.inl ⟨n, by omega, hall, hc⟩
      | true =>
        refine Or.inr (fun k hk => ?_)
        by_cases hkn : k < n
        · exact hall k hkn
        · obtain rfl : k = n := by omega
          exact hc

/-- All a decode can answer (R136 to R138). -/
theorem decodeLanes_cases (bus : Bus) (avail : Count) :
    (∃ t, t < usableCount avail ∧ FirstTerminal bus t ∧
      decodeLanes bus avail = .done (denoted bus (t + 1)) (t + 1)) ∨
    (AllContinued bus (usableCount avail) ∧ usableCount avail = 10 ∧
      decodeLanes bus avail = .overflow 10) ∨
    (AllContinued bus (usableCount avail) ∧ usableCount avail < 10 ∧
      decodeLanes bus avail = .shortOfData (usableCount avail)) := by
  rcases firstTerminal_or_allContinued bus (usableCount avail) with ⟨t, ht, hft⟩ | hall
  · exact Or.inl ⟨t, ht, hft, decodeLanes_terminal bus avail t ht hft⟩
  · have hd := decodeLanes_continued bus avail hall
    have hle := usableCount_le avail
    by_cases h10 : usableCount avail = 10
    · exact Or.inr (Or.inl ⟨hall, h10, by simpa [h10] using hd⟩)
    · exact Or.inr (Or.inr ⟨hall, by omega, by simpa [h10] using hd⟩)

/-- The stand-alone decoder never drives ILLEGAL (R34). -/
theorem varintDecoder_status_ne_illegal (bus : Bus) (avail : Count) :
    (varintDecoder bus avail).status ≠ .illegal := by
  unfold varintDecoder
  cases decodeLanes bus avail <;> simp [decOutOf]

/-! ## Encoded bytes as the decoder reads them -/

theorem encodedByte_lt (v len k : Nat) : encodedByte v len k < 256 := by
  unfold encodedByte
  split <;> omega

theorem continuation_of_holds {bus : Bus} {v len k : Nat} (h : HoldsEncoding bus v len) (hk : k < len) :
    continuation (lane bus k) = decide (k + 1 < len) := by
  rw [continuation_eq, h k hk, encodedByte]
  split
  next hlt => simp [hlt]
  next hge =>
    have : v / 2 ^ (7 * k) % 128 < 128 := Nat.mod_lt _ (by omega)
    simp [hge]
    omega

theorem toNat_payload_of_holds {bus : Bus} {v len k : Nat} (h : HoldsEncoding bus v len)
    (hk : k < len) : (payload (lane bus k)).toNat = v / 2 ^ (7 * k) % 128 := by
  rw [toNat_payload, h k hk, encodedByte]
  split <;> omega

/-- The last byte of an encoding is its first terminal byte. -/
theorem firstTerminal_of_holds {bus : Bus} {v len : Nat} (h : HoldsEncoding bus v len) (hl : 1 ≤ len) :
    FirstTerminal bus (len - 1) where
  before k hk := by
    rw [continuation_of_holds h (by omega)]
    exact decide_eq_true (by omega)
  terminal := by
    rw [continuation_of_holds h (by omega)]
    exact decide_eq_false (by omega)

/-- Bit j of the value that bytes denote is bit j mod 7 of the payload of byte j / 7 (R51, R71). -/
theorem getLsbD_denoted (bus : Bus) (len j : Nat) (hj : j < 64) :
    (denoted bus len).getLsbD j =
      (decide (j / 7 < len) && (payload (lane bus (j / 7))).getLsbD (j % 7)) := by
  induction len with
  | zero => simp [denoted]
  | succ len ih =>
    rw [denoted, BitVec.getLsbD_or, ih, BitVec.getLsbD_shiftLeft, BitVec.getLsbD_setWidth]
    rcases Nat.lt_trichotomy (j / 7) len with h | h | h
    · have h1 : j < 7 * len := by omega
      have h2 : j / 7 < len + 1 := by omega
      simp [h, h1, h2]
    · have h1 : ¬ j < 7 * len := by omega
      have h2 : j - 7 * len = j % 7 := by omega
      have h3 : ¬ j / 7 < len := by omega
      have h4 : j / 7 < len + 1 := by omega
      have h5 : j % 7 < 64 := by omega
      subst h
      simp [hj, h1, h2, h5]
    · have h1 : ¬ j < 7 * len := by omega
      have h2 : ¬ j / 7 < len := by omega
      have h3 : ¬ j / 7 < len + 1 := by omega
      have hz : (payload (lane bus len)).getLsbD (j - 7 * len) = false :=
        BitVec.getLsbD_of_ge _ _ (by omega)
      simp [h2, h3, hz]

end Sys2Proof.Machine
end

