-- ==== Sys2Proof/Laws/Step.lean ====
section
/-! SUPPORT. Everything a command, a statement and a step can answer, each said once. -/

namespace Sys2Proof.Machine

/-! ## Shared operations -/

/-- All that running on the operand ports can answer (spec 10_state.md R36). -/
theorem State.withOperands_cases (s : State)
    (k : Wide → Bus → Count → Host.Outcome State Fault Refusal) :
    (∃ a b n, s.Driven a b n ∧ s.withOperands k = k a b n) ∨
    ((s.opa = none ∨ s.inBytes = none ∨ s.inAvail = none) ∧
      s.withOperands k = .refused .undrivenInput) := by
  unfold State.withOperands
  cases ha : s.opa <;> cases hb : s.inBytes <;> cases hn : s.inAvail <;> simp
  exact ⟨_, _, _, ⟨ha, hb, hn⟩, rfl⟩

theorem State.Driven.withOperands {s : State} {a : Wide} {b : Bus} {n : Count}
    (h : s.Driven a b n) (k : Wide → Bus → Count → Host.Outcome State Fault Refusal) :
    s.withOperands k = k a b n := by
  simp [State.withOperands, h.opa, h.inBytes, h.inAvail]

/-- All that driving the outputs and appending can answer (20_memory.md R57). -/
theorem State.driveAppend_cases (s : State) (i : Instr) (o : CoreOut) :
    (fitsLimit s.bufLimit (Memory.size s.buf + o.count.toNat) = true ∧
      s.driveAppend i o = .next ((s.drive i o).withBuf
        (Memory.append s.buf (lanesFrom o.outBytes 0 o.count.toNat)))) ∨
    (fitsLimit s.bufLimit (Memory.size s.buf + o.count.toNat) = false ∧
      s.driveAppend i o = .refused .bufferCannotGrow) := by
  unfold State.driveAppend
  rcases Memory.grow_cases s.buf s.bufLimit (lanesFrom o.outBytes 0 o.count.toNat) with
    ⟨hf, hg⟩ | ⟨hf, hg⟩
  · exact Or.inl ⟨by simpa using hf, by rw [hg]⟩
  · exact Or.inr ⟨by simpa using hf, by rw [hg]⟩

/-! ## Commands -/

/-- The commands whose bytes the host appends (20_memory.md R57). -/
def appends : Instr → Bool
  | .putU64 => true
  | .putI64 => true
  | .getU64 => false
  | .getI64 => false
  | .zzEnc8 => false
  | .zzEnc16 => false
  | .zzEnc32 => false
  | .zzEnc64 => false
  | .zzEnc128 => false
  | .zzDec8 => false
  | .zzDec16 => false
  | .zzDec32 => false
  | .zzDec64 => false
  | .zzDec128 => false

/-- What a command does on driven operands: it drives the outputs of `vz_core`, and the host appends for a put. -/
theorem exec_driven {s : State} {a : Wide} {b : Bus} {n : Count} (h : s.Driven a b n) (i : Instr) :
    exec i s = if appends i then s.driveAppend i (commandOut i a b n)
      else .next (s.drive i (commandOut i a b n)) := by
  cases i <;> exact h.withOperands _

/-- A command on an undriven operand port is refused (10_state.md R36). -/
theorem exec_undriven {s : State} (h : s.opa = none ∨ s.inBytes = none ∨ s.inAvail = none)
    (i : Instr) : exec i s = .refused .undrivenInput := by
  have key (k) : s.withOperands k = .refused .undrivenInput := by
    rcases s.withOperands_cases k with ⟨a, b, n, hd, -⟩ | ⟨-, hr⟩
    · simp [hd.opa, hd.inBytes, hd.inAvail] at h
    · exact hr
  cases i <;> exact key _

/-- All a command can answer. -/
theorem exec_cases (i : Instr) (s : State) :
    (∃ a b n, s.Driven a b n ∧ appends i = false ∧ exec i s = .next (s.drive i (commandOut i a b n))) ∨
    (∃ a b n, s.Driven a b n ∧ appends i = true ∧
      fitsLimit s.bufLimit (Memory.size s.buf + (commandOut i a b n).count.toNat) = true ∧
      exec i s = .next ((s.drive i (commandOut i a b n)).withBuf (Memory.append s.buf
        (lanesFrom (commandOut i a b n).outBytes 0 (commandOut i a b n).count.toNat)))) ∨
    (∃ a b n, s.Driven a b n ∧ appends i = true ∧
      fitsLimit s.bufLimit (Memory.size s.buf + (commandOut i a b n).count.toNat) = false ∧
      exec i s = .refused .bufferCannotGrow) ∨
    ((s.opa = none ∨ s.inBytes = none ∨ s.inAvail = none) ∧ exec i s = .refused .undrivenInput) := by
  by_cases hd : ∃ a b n, s.Driven a b n
  · obtain ⟨a, b, n, hd⟩ := hd
    have he := exec_driven hd i
    cases hap : appends i with
    | false => exact Or.inl ⟨a, b, n, hd, rfl, by simpa [hap] using he⟩
    | true =>
      rw [hap, if_pos rfl] at he
      rcases s.driveAppend_cases i (commandOut i a b n) with ⟨hf, hr⟩ | ⟨hf, hr⟩
      · exact Or.inr (Or.inl ⟨a, b, n, hd, rfl, hf, he.trans hr⟩)
      · exact Or.inr (Or.inr (Or.inl ⟨a, b, n, hd, rfl, hf, he.trans hr⟩))
  · have hu : s.opa = none ∨ s.inBytes = none ∨ s.inAvail = none := by
      rcases s.withOperands_cases (fun _ _ _ => .refused .noStatement) with ⟨a, b, n, h, -⟩ | ⟨h, -⟩
      · exact absurd ⟨a, b, n, h⟩ hd
      · exact h
    exact Or.inr (Or.inr (Or.inr ⟨hu, exec_undriven hu i⟩))

/-- A command that appends nothing completes on driven operands, and its frame. -/
theorem answersOnly_of_driven {s : State} {a : Wide} {b : Bus} {n : Count} (h : s.Driven a b n)
    {i : Instr} (hi : appends i = false) :
    AnswersOnly i s (s.drive i (commandOut i a b n)) (commandOut i a b n) where
  runs := by rw [exec_driven h, hi]; rfl
  out := rfl
  frame := ⟨rfl, rfl, rfl, rfl, rfl, rfl, rfl⟩
  kept := ⟨rfl, fun _ => rfl⟩

/-- A put completes on driven operands if its bytes fit, and its frame. -/
theorem answersAppending_of_driven {s : State} {a : Wide} {b : Bus} {n : Count}
    (h : s.Driven a b n) {i : Instr} (hi : appends i = true)
    (hfit : fitsLimit s.bufLimit (Memory.size s.buf + (commandOut i a b n).count.toNat) = true) :
    AnswersAppending i s ((s.drive i (commandOut i a b n)).withBuf (Memory.append s.buf
      (lanesFrom (commandOut i a b n).outBytes 0 (commandOut i a b n).count.toNat)))
      (commandOut i a b n) where
  runs := by
    rcases s.driveAppend_cases i (commandOut i a b n) with ⟨-, hr⟩ | ⟨hf, -⟩
    · rw [exec_driven h, hi, if_pos rfl, hr]
    · simp [hfit] at hf
  out := rfl
  frame := ⟨rfl, rfl, rfl, rfl, rfl, rfl, rfl⟩
  grows := by
    refine ⟨by simp, fun hwf k hk => ?_, fun k hk => ?_⟩
    · rw [State.withBuf_buf, Memory.read_append_inside _ hwf, getElem?_lanesFrom _ _ _ _ hk,
        Nat.zero_add]
    · rw [State.withBuf_buf, Memory.read_append_outside _ _ _ (by simpa using hk)]

/-- What a command that answered a next state drove: the operands were driven, and these are its outputs. -/
theorem Answers.out_eq {i : Instr} {s t : State} {o : CoreOut} (h : Answers i s t o) {a : Wide}
    {b : Bus} {n : Count} (hd : s.Driven a b n) : o = commandOut i a b n := by
  have hrun := h.runs
  rw [exec_driven hd] at hrun
  have key : t.coreOut = some (commandOut i a b n) := by
    cases hi : appends i with
    | false =>
      rw [hi] at hrun
      cases hrun
      rfl
    | true =>
      rw [hi, if_pos rfl] at hrun
      rcases s.driveAppend_cases i (commandOut i a b n) with ⟨-, hr⟩ | ⟨-, hr⟩ <;> rw [hr] at hrun
      · cases hrun
        rfl
      · cases hrun
  rw [h.out] at key
  exact Option.some.inj key

/-- The outputs of a legal command are those of `vz_core` on its word (30_encoding.md R81). -/
theorem vzCore_encode (i : Instr) (a : Wide) (b : Bus) (n : Count) :
    vzCore (encode i) a b n = commandOut i a b n := by
  cases i <;> rfl

/-! ## Statements -/

/-- What a get at an offset within a canonical buffer reads: as many bytes as it presents, each the buffer's own (20_memory.md R58). -/
theorem Memory.dataAt_of_wf {m : Memory} (h : Memory.wf m = true) {off : Nat}
    (ho : off ≤ Memory.size m) : ∃ data, Memory.dataAt m off = some data ∧
      data.length = presentedCount (Memory.size m - off) ∧
      ∀ k, k < data.length → Memory.read m (off + k) = data[k]? := by
  obtain ⟨data, hr, hl, hk⟩ := Memory.readBytes_some m off (presentedCount (Memory.size m - off))
    (fun k hk => by
      have hlt : off + k < m.length := by
        simp only [presentedCount, Memory.size] at hk ho
        omega
      rw [Memory.read_wf m h]
      simp [hlt])
  exact ⟨data, by simp [Memory.dataAt, ho, hr], hl, fun k hlt => hk k (hl ▸ hlt)⟩

/-- Presenting an operand changes the operand ports only. -/
theorem present_cases {i : Instr} {operand : Operand} {s s' : State}
    (h : present i operand s = .ok s') : ∃ a b n, s' = s.setOperands a b n := by
  unfold present at h
  split at h
  · cases operand with
    | literal v => exact ⟨_, _, _, (Except.ok.inj h).symm⟩
    | bytes data => exact ⟨_, _, _, (Except.ok.inj h).symm⟩
    | ports a b n => exact ⟨_, _, _, (Except.ok.inj h).symm⟩
    | buffer off =>
      simp only at h
      split at h
      · exact ⟨_, _, _, (Except.ok.inj h).symm⟩
      · cases h
  · cases h

/-- All that issuing one call can lead to, if it answers a next state. -/
theorem issue_next {c : Call} {s t : State} (h : issue c s = .next t) :
    (∃ w operand i s', c = .command (some w) operand ∧ decode w = .instr i ∧
      present i operand s = .ok s' ∧ exec i s' = .next t) ∨
    (∃ v, c = .encoder (some v) ∧ t = s.withUnits
      { s.units with encValue := some v, encOut := some (varintEncoder v) }) ∨
    (∃ b n, c = .decoder (some b) (some n) ∧ t = s.withUnits
      { s.units with decBytes := some b, decAvail := some n, decOut := some (varintDecoder b n) }) ∨
    (∃ w x, c = .zigzagEncoder w (some x) ∧ t = s.withUnits
      { s.units with zzeIn := s.units.zzeIn.set w x, zzeOut := s.units.zzeOut.set w (zigzagEncode x) }) ∨
    (∃ w u, c = .zigzagDecoder w (some u) ∧ t = s.withUnits
      { s.units with zzdIn := s.units.zzdIn.set w u, zzdOut := s.units.zzdOut.set w (zigzagDecode u) }) := by
  cases c with
  | command cmd operand =>
    left
    cases cmd with
    | none => cases h
    | some w =>
      simp only [issue, issueCommand] at h
      cases hd : decode w with
      | reserved why => simp only [hd] at h; cases h
      | instr i =>
        simp only [hd] at h
        cases hp : present i operand s with
        | error r => simp only [hp] at h; cases h
        | ok s' => simp only [hp] at h; exact ⟨w, operand, i, s', rfl, hd, hp, h⟩
  | encoder v =>
    right; left
    cases v with
    | none => cases h
    | some v => exact ⟨v, rfl, by cases h; rfl⟩
  | decoder b n =>
    right; right; left
    cases b <;> cases n <;> simp only [issue, execDecoder] at h <;> try cases h
    rw [if_neg (varintDecoder_status_ne_illegal _ _)] at h
    exact ⟨_, _, rfl, by cases h; rfl⟩
  | zigzagEncoder w x =>
    right; right; right; left
    cases x with
    | none => cases h
    | some x => exact ⟨w, x, rfl, by cases h; rfl⟩
  | zigzagDecoder w u =>
    right; right; right; right
    cases u with
    | none => cases h
    | some u => exact ⟨w, u, rfl, by cases h; rfl⟩

/-- All a step can lead to: it issues the first statement, settled, on the state without it. -/
theorem step_next {s t : State} (h : step s = .next t) :
    ∃ c rest, s.program = ⟨c, true⟩ :: rest ∧ issue c (s.withProgram rest) = .next t := by
  unfold step issueNext at h
  split at h
  · cases h
  · next st rest hp =>
    split at h
    · next hs =>
      obtain ⟨c, settled⟩ := st
      obtain rfl : settled = true := hs
      exact ⟨c, rest, hp, h⟩
    · cases h

end Sys2Proof.Machine
end

