-- ==== Sys2Proof/Laws/Zigzag.lean ====
section
/-! SUPPORT. Zig-zag bit by bit and as an integer function (spec 40_zigzag.md R100 to R102), at every width. -/

namespace Sys2Proof.Machine

/-- The sign pattern: all ones if the input is negative, else 0 (R100). -/
theorem sshiftRight_pred_eq {n : Nat} (x : BitVec n) :
    x.sshiftRight (n - 1) = if x.msb then BitVec.allOnes n else 0#n := by
  apply BitVec.eq_of_getLsbD_eq
  intro i hi
  have hsign : (if n - 1 + i < n then x.getLsbD (n - 1 + i) else x.msb) = x.msb := by
    split
    · obtain rfl : i = 0 := by omega
      simp [BitVec.msb_eq_getLsbD_last]
    · rfl
  rw [BitVec.getLsbD_sshiftRight, hsign]
  cases x.msb <;> simp [hi]

/-- The decode mask: all ones if bit 0 is 1, else 0 (R102). -/
theorem decode_mask_eq {n : Nat} (u : BitVec n) :
    0#n - (u.extractLsb' 0 1).setWidth n = if u.getLsbD 0 then BitVec.allOnes n else 0#n := by
  have hbit : u.extractLsb' 0 1 = BitVec.ofBool (u.getLsbD 0) := by
    apply BitVec.eq_of_getLsbD_eq
    intro i hi
    obtain rfl : i = 0 := by omega
    simp
  rw [hbit]
  cases u.getLsbD 0
  · simp
  · simp only [BitVec.ofBool_true, if_true]
    apply BitVec.eq_of_toNat_eq
    rcases Nat.eq_zero_or_pos n with rfl | hn
    · simp
    · have h1 : 1 < 2 ^ n := Nat.one_lt_two_pow (by omega)
      simp [Nat.mod_eq_of_lt h1]

theorem zigzagEncode_eq {n : Nat} (x : BitVec n) :
    zigzagEncode x = if x.msb then ~~~(x <<< 1) else x <<< 1 := by
  rw [zigzagEncode, sshiftRight_pred_eq]
  cases x.msb <;> simp

theorem zigzagDecode_eq {n : Nat} (u : BitVec n) :
    zigzagDecode u = if u.getLsbD 0 then ~~~(u >>> 1) else u >>> 1 := by
  rw [zigzagDecode, decode_mask_eq]
  cases u.getLsbD 0 <;> simp

theorem getLsbD_zigzagEncode {n : Nat} (x : BitVec n) (i : Nat) (hi : i < n) :
    (zigzagEncode x).getLsbD i = ((decide (1 ≤ i) && x.getLsbD (i - 1)) ^^ x.msb) := by
  rw [zigzagEncode_eq]
  cases i with
  | zero => cases hm : x.msb <;> simp [hi]
  | succ i =>
    have hi' : i < n := by omega
    cases hm : x.msb <;> simp [hi, hi']

theorem getLsbD_zigzagDecode {n : Nat} (u : BitVec n) (i : Nat) (hi : i < n) :
    (zigzagDecode u).getLsbD i = (u.getLsbD (i + 1) ^^ u.getLsbD 0) := by
  rw [zigzagDecode_eq]
  cases hb : u.getLsbD 0 <;> simp [hi, Nat.add_comm]

/-- The integer function of R101, at every width above 0. -/
theorem toNat_zigzagEncode {n : Nat} (hn : 0 < n) (x : BitVec n) :
    ((zigzagEncode x).toNat : Int) = zigzagInt x.toInt := by
  obtain ⟨m, rfl⟩ : ∃ m, n = m + 1 := ⟨n - 1, by omega⟩
  have hx := x.isLt
  have hp : 2 ^ (m + 1) = 2 * 2 ^ m := by rw [Nat.pow_succ, Nat.mul_comm]
  have hmsb : x.msb = decide (2 ^ m ≤ x.toNat) := BitVec.msb_eq_decide x
  have hshift : (x <<< 1).toNat = 2 * x.toNat % 2 ^ (m + 1) := by
    rw [BitVec.toNat_shiftLeft, Nat.shiftLeft_eq, Nat.mul_comm x.toNat]
  have hnot := BitVec.toNat_not (x := x <<< 1)
  rw [zigzagEncode_eq, BitVec.toInt_eq_msb_cond, hmsb]
  generalize (2 : Nat) ^ (m + 1) = q at *
  generalize (2 : Nat) ^ m = p at *
  by_cases h : p ≤ x.toNat
  · rw [Nat.mod_eq_sub_mod (by omega), Nat.mod_eq_of_lt (by omega)] at hshift
    simp only [h, decide_true, if_true, zigzagInt]
    rw [if_neg (by omega)]
    omega
  · rw [Nat.mod_eq_of_lt (by omega)] at hshift
    simp only [h, decide_false, Bool.false_eq_true, if_false, zigzagInt]
    rw [if_pos (by omega)]
    omega

/-- The integer function of R102, at every width above 0. -/
theorem toInt_zigzagDecode {n : Nat} (hn : 0 < n) (u : BitVec n) :
    (zigzagDecode u).toInt = zagzigInt u.toNat := by
  obtain ⟨m, rfl⟩ : ∃ m, n = m + 1 := ⟨n - 1, by omega⟩
  have hu := u.isLt
  have hp : 2 ^ (m + 1) = 2 * 2 ^ m := by rw [Nat.pow_succ, Nat.mul_comm]
  have hbit : u.getLsbD 0 = decide (u.toNat % 2 = 1) := by
    rw [BitVec.getLsbD, Nat.testBit_zero]
  have hshift : (u >>> 1).toNat = u.toNat / 2 := by
    rw [BitVec.toNat_ushiftRight, Nat.shiftRight_eq_div_pow, Nat.pow_one]
  have hnot := BitVec.toNat_not (x := u >>> 1)
  rw [zigzagDecode_eq, hbit, zagzigInt]
  by_cases h : u.toNat % 2 = 1
  · simp only [h, decide_true, if_true]
    rw [BitVec.toInt_eq_toNat_cond]
    generalize (2 : Nat) ^ (m + 1) = q at *
    generalize (2 : Nat) ^ m = p at *
    rw [if_neg (by omega), if_neg (by omega)]
    omega
  · simp only [h, decide_false, Bool.false_eq_true, if_false]
    rw [BitVec.toInt_eq_toNat_cond]
    generalize (2 : Nat) ^ (m + 1) = q at *
    generalize (2 : Nat) ^ m = p at *
    rw [if_pos (by omega), if_pos (by omega)]
    omega

end Sys2Proof.Machine
end

