-- ==== Sys2Proof/Tests/Slice0.lean ====
section
/-! SUPPORT. The implementer's own tests: ill-formed statements, words written out from spec 30_encoding.md R81, vectors of 95_test_vectors.md, and for every statement with hypotheses a state and operands that meet them. -/

namespace Sys2Proof.Tests

open Sys2Proof.Machine

/-! ## Helpers -/

/-- After power-up, with the operand ports driven. -/
def drivenState (a : Wide) (b : Bus) (n : Count) : State :=
  State.reset.setOperands (some a) (some b) (some n)

/-- After power-up, with one statement to issue. -/
def programState (c : Call) : State := State.reset.withProgram [⟨c, true⟩]

/-- The outputs of `vz_core` in the next state. -/
def outOf : Host.Outcome State Fault Refusal → Option CoreOut
  | .next t => t.coreOut
  | .fault _ => none
  | .refused _ => none

/-- The bytes of the buffer in the next state. -/
def bytesOf : Host.Outcome State Fault Refusal → Option (List Byte)
  | .next t => some (t.buf.map Prod.snd)
  | .fault _ => none
  | .refused _ => none

/-- Why the step is refused. -/
def refusalOf : Host.Outcome State Fault Refusal → Option Refusal
  | .next _ => none
  | .fault _ => none
  | .refused r => some r

theorem driven (a : Wide) (b : Bus) (n : Count) : (drivenState a b n).Driven a b n := ⟨rfl, rfl, rfl⟩

/-! ## WellFormed: one ill-formed term for each check -/

theorem test_wellformed_put : statementWellFormed ⟨.command (some 0x00#7) (.literal 300), true⟩ = true := by decide
theorem test_illformed_undriven_cmd : statementWellFormed ⟨.command none (.literal 0), true⟩ = false := by decide
theorem test_illformed_reserved_word : statementWellFormed ⟨.command (some 0x06#7) (.literal 0), true⟩ = false := by decide
theorem test_illformed_literal_on_get : statementWellFormed ⟨.command (some 0x02#7) (.literal 0), true⟩ = false := by decide
theorem test_illformed_offset_on_put : statementWellFormed ⟨.command (some 0x00#7) (.buffer 0), true⟩ = false := by decide
theorem test_illformed_bytes_on_zigzag : statementWellFormed ⟨.command (some 0x04#7) (.bytes []), true⟩ = false := by decide
theorem test_illformed_literal_range : statementWellFormed ⟨.command (some 0x04#7) (.literal 128), true⟩ = false := by decide
theorem test_illformed_undriven_port : statementWellFormed ⟨.command (some 0x00#7) (.ports (some 0) none (some 0)), true⟩ = false := by decide
theorem test_illformed_undriven_encoder : statementWellFormed ⟨.encoder none, true⟩ = false := by decide
theorem test_illformed_undriven_decoder : statementWellFormed ⟨.decoder (some 0) none, true⟩ = false := by decide
theorem test_illformed_undriven_zigzag_encoder : statementWellFormed ⟨.zigzagEncoder .w8 none, true⟩ = false := by decide
theorem test_illformed_undriven_zigzag_decoder : statementWellFormed ⟨.zigzagDecoder .w128 none, true⟩ = false := by decide
theorem test_illformed_unsettled : statementWellFormed ⟨.encoder (some 0), false⟩ = false := by decide

/-! ## Decode: the words of R81, bit 6 first -/

theorem test_decode_putU64 : decode 0b0000000#7 = .instr .putU64 := by decide
theorem test_decode_putI64 : decode 0b0000001#7 = .instr .putI64 := by decide
theorem test_decode_getU64 : decode 0b0000010#7 = .instr .getU64 := by decide
theorem test_decode_getI64 : decode 0b0000011#7 = .instr .getI64 := by decide
theorem test_decode_zzEnc8 : decode 0b0000100#7 = .instr .zzEnc8 := by decide
theorem test_decode_zzEnc16 : decode 0b0010100#7 = .instr .zzEnc16 := by decide
theorem test_decode_zzEnc32 : decode 0b0100100#7 = .instr .zzEnc32 := by decide
theorem test_decode_zzEnc64 : decode 0b0110100#7 = .instr .zzEnc64 := by decide
theorem test_decode_zzEnc128 : decode 0b1000100#7 = .instr .zzEnc128 := by decide
theorem test_decode_zzDec8 : decode 0b0000101#7 = .instr .zzDec8 := by decide
theorem test_decode_zzDec16 : decode 0b0010101#7 = .instr .zzDec16 := by decide
theorem test_decode_zzDec32 : decode 0b0100101#7 = .instr .zzDec32 := by decide
theorem test_decode_zzDec64 : decode 0b0110101#7 = .instr .zzDec64 := by decide
theorem test_decode_zzDec128 : decode 0b1000101#7 = .instr .zzDec128 := by decide
theorem test_decode_reserved : decode 0x06#7 = .reserved .reservedOp ∧ decode 0x10#7 = .reserved .widthOnVarint ∧
    decode 0x54#7 = .reserved .reservedWidth := by decide
theorem test_table_word_above_cmd : decodeTableWord 8 0x80 = none ∧ decodeTableWord 8 0x45 = some .zzDec128 := by decide

/-! ## Vectors of 95_test_vectors.md, section 3.4 and section 2 -/

theorem test_putU64_300 : outOf (exec .putU64 (drivenState 300 0 0)) = some ⟨.ok, 0, 0x000000000000000002AC, 2⟩ := by decide
theorem test_putU64_max : bytesOf (exec .putU64 (drivenState 0xFFFFFFFFFFFFFFFF 0 0)) =
    some [0xFF, 0xFF, 0xFF, 0xFF, 0xFF, 0xFF, 0xFF, 0xFF, 0xFF, 0x01] := by decide
theorem test_putI64_minus_one : outOf (exec .putI64 (drivenState 0xFFFFFFFFFFFFFFFF 0 0)) = some ⟨.ok, 0, 1, 1⟩ := by decide
theorem test_putI64_minus_65 : bytesOf (exec .putI64 (drivenState 0xFFFFFFFFFFFFFFBF 0 0)) = some [0x81, 0x01] := by decide
theorem test_getU64_tenth_byte : outOf (exec .getU64 (drivenState 0 0x79808080808080808080 10)) =
    some ⟨.ok, 0x8000000000000000, 0, 10⟩ := by decide
theorem test_getU64_overflow_at_15 : outOf (exec .getU64 (drivenState 0 0x80808080808080808080 15)) =
    some ⟨.overflow, 0, 0, 10⟩ := by decide
theorem test_getI64_minus_one : outOf (exec .getI64 (drivenState 0 1 1)) = some ⟨.ok, 0xFFFFFFFFFFFFFFFF, 0, 1⟩ := by decide
theorem test_getI64_short : outOf (exec .getI64 (drivenState 0 0x02AC 1)) = some ⟨.shortOfData, 0, 0, 1⟩ := by decide
theorem test_zzEnc8_minus_64 : outOf (exec .zzEnc8 (drivenState 0xABC0 0 0)) = some ⟨.ok, 0x7F, 0, 0⟩ := by decide
theorem test_zzEnc16_minus_32767 : outOf (exec .zzEnc16 (drivenState 0x8001 0 0)) = some ⟨.ok, 0xFFFD, 0, 0⟩ := by decide
theorem test_zzEnc32_minus_64 : outOf (exec .zzEnc32 (drivenState 0xFFFFFFC0 0 0)) = some ⟨.ok, 0x7F, 0, 0⟩ := by decide
theorem test_zzEnc64_min_plus_one : outOf (exec .zzEnc64 (drivenState 0x8000000000000001 0 0)) =
    some ⟨.ok, 0xFFFFFFFFFFFFFFFD, 0, 0⟩ := by decide
theorem test_zzEnc128_minus_one : outOf (exec .zzEnc128 (drivenState 0xFFFFFFFFFFFFFFFFFFFFFFFFFFFFFFFF 0 0)) =
    some ⟨.ok, 1, 0, 0⟩ := by decide
theorem test_zzDec8_0x7F : outOf (exec .zzDec8 (drivenState 0x7F 0 0)) = some ⟨.ok, 0xC0, 0, 0⟩ := by decide
theorem test_zzDec16_3 : outOf (exec .zzDec16 (drivenState 3 0 0)) = some ⟨.ok, 0xFFFE, 0, 0⟩ := by decide
theorem test_zzDec32_max : outOf (exec .zzDec32 (drivenState 0xFFFFFFFE 0 0)) = some ⟨.ok, 0x7FFFFFFF, 0, 0⟩ := by decide
theorem test_zzDec64_high_bit : outOf (exec .zzDec64 (drivenState 0x8000000000000000 0 0)) =
    some ⟨.ok, 0x4000000000000000, 0, 0⟩ := by decide
theorem test_zzDec128_4 : outOf (exec .zzDec128 (drivenState 4 0 0)) = some ⟨.ok, 2, 0, 0⟩ := by decide

/-! ## Steps -/

/-- Program A, statement 2: `put_i64 -1`. -/
theorem test_step_put_literal : bytesOf (step (programState (.command (some 0x01#7) (.literal (-1))))) = some [0x01] := by decide
/-- Program C, statement 2, on its buffer: `get_u64 @1`. -/
theorem test_step_get_at_offset :
    outOf (step ((programState (.command (some 0x02#7) (.buffer 1))).withBuf
      (Memory.append [] [0x80, 0x80, 0x80, 0x80, 0x80, 0x80, 0x80, 0x80, 0x80, 0x80, 0x00]))) =
    some ⟨.ok, 0, 0, 10⟩ := by decide
/-- Program E: a reserved command. -/
theorem test_step_reserved : refusalOf (step (programState (.command (some 0x06#7) (.literal 0)))) =
    some (.reservedCommand 0x06 .reservedOp) := by decide
theorem test_step_offset_beyond : refusalOf (step (programState (.command (some 0x02#7) (.buffer 1)))) =
    some .offsetBeyondBuffer := by decide
theorem test_first_word_after_reset : (outOf (step (State.reset.withFetchWord 8 0x44))).isSome = true := by decide

/-! ## Witnesses: for each statement with hypotheses, what meets them -/

/-- `put_u64 300` answers on the driven state. -/
theorem answers_put (i : Instr) (h : appends i = true) (a : Wide) (b : Bus) (n : Count) :
    ∃ t o, Answers i (drivenState a b n) t o :=
  ⟨_, _, (answersAppending_of_driven (driven a b n) h rfl).toAnswers⟩

theorem answers_only (i : Instr) (h : appends i = false) (a : Wide) (b : Bus) (n : Count) :
    ∃ t o, Answers i (drivenState a b n) t o ∧ o = commandOut i a b n :=
  ⟨_, _, (answersOnly_of_driven (driven a b n) h).toAnswers, rfl⟩

theorem inv_driven (a : Wide) (b : Bus) (n : Count) : (drivenState a b n).Inv where
  core := rfl
  units := ⟨rfl, rfl, fun w => by cases w <;> rfl, fun w => by cases w <;> rfl⟩
  buf := rfl
  limit := rfl

theorem witness_StepKeepsInvariant : ∃ s t, s.Inv ∧ step s = .next t :=
  ⟨programState (.command (some 0x00#7) (.literal 300)), _,
    ⟨rfl, ⟨rfl, rfl, fun w => by cases w <;> rfl, fun w => by cases w <;> rfl⟩, rfl, rfl⟩, rfl⟩

theorem witness_StepRunsDecodedCommand :
    (programState (.command (some 0x00#7) (.literal 300))).program =
      ⟨.command (some 0x00#7) (.literal 300), true⟩ :: [] ∧
    decode 0x00#7 = .instr .putU64 ∧
    ∃ s', present .putU64 (.literal 300)
      ((programState (.command (some 0x00#7) (.literal 300))).withProgram []) = .ok s' :=
  ⟨rfl, by decide, _, rfl⟩

theorem witness_FetchWordRunsNext : decodeTableWord 8 0x45 = some .zzDec128 := by decide

theorem witness_CommandWordsRoundTrip : decode 0x45#7 = .instr .zzDec128 := by decide

theorem witness_ReservedWordsAreIllegal : decode 0x55#7 = .reserved .reservedWidth := by decide

theorem witness_ReservedWordRefused : decode 0x7F#7 = .reserved .reservedOp ∧
    (programState (.command (some 0x7F#7) (.literal 0))).program =
      ⟨.command (some 0x7F#7) (.literal 0), true⟩ :: [] := ⟨by decide, rfl⟩

theorem witness_IllegalOnlyFromReservedWord : 10 < (11#4).toNat ∧
    (vzCore 0x06#7 0 0 0).status.code = 0b11#2 := by decide

theorem witness_UndrivenInputRefused : State.reset.opa = none ∧ State.reset.inBytes = none ∧
    State.reset.inAvail = none := ⟨rfl, rfl, rfl⟩

theorem witness_UnsettledSampleRefused :
    (State.reset.withProgram [⟨.encoder (some 0), false⟩]).program = ⟨.encoder (some 0), false⟩ :: [] ∧
    State.reset.program = [] := ⟨rfl, rfl⟩

/-- A state with a full buffer, its bound 0, and one statement. -/
def fullState (c : Call) : State := State.mk none none none none none Units.undriven [] (some 0) [⟨c, true⟩]

/-- Each clause: an offset one beyond the end, a put of one byte with room for none, and a get at the end. -/
theorem witness_WellFormedStatementRuns :
    (∀ c : Call, (fullState c).program = ⟨c, true⟩ :: [] ∧ Memory.wf (fullState c).buf = true) ∧
    (statementWellFormed ⟨.command (some 0x02#7) (.buffer 1), true⟩ = true ∧
      (fullState (.command (some 0x02#7) (.buffer 1))).ReadsBeyond (.command (some 0x02#7) (.buffer 1))) ∧
    (statementWellFormed ⟨.command (some 0x00#7) (.literal 0), true⟩ = true ∧
      (fullState (.command (some 0x00#7) (.literal 0))).LacksRoom (.command (some 0x00#7) (.literal 0))) ∧
    (statementWellFormed ⟨.command (some 0x02#7) (.buffer 0), true⟩ = true ∧
      ¬ (fullState (.command (some 0x02#7) (.buffer 0))).ReadsBeyond (.command (some 0x02#7) (.buffer 0)) ∧
      ¬ (fullState (.command (some 0x02#7) (.buffer 0))).LacksRoom (.command (some 0x02#7) (.buffer 0))) := by
  refine ⟨fun _ => ⟨rfl, rfl⟩, ⟨by decide, _, _, rfl, by decide⟩, ⟨by decide, .putU64, _, _, 0, 0, 0, 1, rfl, rfl,
    ⟨rfl, rfl, rfl⟩, Or.inl ⟨rfl, by decide, by decide, by decide, by decide⟩, rfl⟩,
    by decide, ?_, ?_⟩
  · rintro ⟨w, off, h, hlt⟩
    cases h
    exact absurd hlt (by decide)
  · rintro ⟨i, operand, s', a, b, n, len, h, -, -, hi, -⟩
    rcases hi with ⟨rfl, -⟩ | ⟨rfl, -⟩ <;> simp [encode] at h

theorem witness_OutputsAreFunctionOfInputs :
    (∃ t, exec .zzEnc8 (drivenState 1 0 0) = .next t) ∧
    (∃ t, issue (.encoder (some 1)) State.reset = .next t) ∧
    (∃ t, issue (.decoder (some 1) (some 1)) State.reset = .next t) ∧
    (∃ t, issue (.zigzagEncoder .w8 (some 1#8)) State.reset = .next t) ∧
    (∃ t, issue (.zigzagDecoder .w128 (some 1#128)) State.reset = .next t) :=
  ⟨⟨_, rfl⟩, ⟨_, rfl⟩, ⟨_, rfl⟩, ⟨_, rfl⟩, ⟨_, rfl⟩⟩

theorem witness_ExceptionalOutcomeCounts :
    (vzCore 0x02#7 0 0x808080808080808080 9).status.code = 0b01#2 ∧
    (vzCore 0x03#7 0 0x80808080808080808080 10).status.code = 0b10#2 ∧
    (vzCore 0x10#7 0 0 0).status.code = 0b11#2 := by decide

theorem witness_PutsAndZigzagsAlwaysOk : Instr.putI64 ≠ .getU64 ∧ Instr.putI64 ≠ .getI64 ∧
    ∃ t o, Answers .putI64 (drivenState 1 0 0) t o := ⟨by decide, by decide, answers_put _ rfl _ _ _⟩

theorem witness_ZigzagEncodeCompletes : (drivenState 0x80 0 0).Driven 0x80 0 0 := driven _ _ _

theorem witness_ZigzagDecodeCompletes : (drivenState 0xFF 0 0).Driven 0xFF 0 0 := driven _ _ _

theorem witness_ZigzagCommandsUndoEachOther : (drivenState 0x80 0 0).Driven 0x80 0 0 ∧
    (∃ t o, Answers (zzEncOf .w8) (drivenState 0x80 0 0) t o) ∧
    (∃ t o, Answers (zzDecOf .w8) (drivenState 0x80 0 0) t o) := by
  obtain ⟨t, o, h, -⟩ := answers_only .zzEnc8 rfl 0x80 0 0
  obtain ⟨t', o', h', -⟩ := answers_only .zzDec8 rfl 0x80 0 0
  exact ⟨driven _ _ _, ⟨t, o, h⟩, ⟨t', o', h'⟩⟩

theorem witness_PutU64Completes : (drivenState 0x80 0 0).Driven 0x80 0 0 ∧
    IsVarintLength (putValueU64 0x80) 2 ∧
    fitsLimit (drivenState 0x80 0 0).bufLimit (Memory.size (drivenState 0x80 0 0).buf + 2) = true :=
  ⟨driven _ _ _, ⟨by decide, by decide, by decide, by decide⟩, rfl⟩

theorem witness_PutI64Completes : (drivenState 0x3F 0 0).Driven 0x3F 0 0 ∧
    IsVarintLength (putValueI64 0x3F) 1 ∧
    fitsLimit (drivenState 0x3F 0 0).bufLimit (Memory.size (drivenState 0x3F 0 0).buf + 1) = true :=
  ⟨driven _ _ _, ⟨by decide, by decide, by decide, by decide⟩, rfl⟩

theorem witness_EncoderLengthIsL : IsVarintLength (0x8000000000000000#64).toNat 10 :=
  ⟨by decide, by decide, by decide, by decide⟩

theorem witness_LengthBoundaryTable : (0xFFFF#64).toNat < 2 ^ 16 ∧ (0xFFFFFFFF#64).toNat < 2 ^ 32 := by decide

theorem witness_EncodingIsWellFormedAndInjective :
    (varintEncoder 0x8000000000000000).len.toNat = 10 ∧
    lane (varintEncoder 0).bytes ((varintEncoder 0).len.toNat - 1) = 0x00#8 ∧
    (varintEncoder 5).len = (varintEncoder 5).len := by decide

theorem witness_PutWithoutRoomRefused :
    (State.mk none (some 0x40) (some 0) (some 0) none Units.undriven [] (some 0) []).Driven 0x40 0 0 ∧
    0 < Memory.size [] + 1 ∧ IsVarintLength (putValueU64 0x40) 1 ∧ IsVarintLength (putValueI64 0x3F) 1 :=
  ⟨⟨rfl, rfl, rfl⟩, by decide, ⟨by decide, by decide, by decide, by decide⟩,
    ⟨by decide, by decide, by decide, by decide⟩⟩

theorem firstTerminal_nine : FirstTerminal 0x79808080808080808080 9 :=
  ⟨by decide, by decide⟩

theorem witness_GetU64SucceedsAtFirstTerminal :
    (drivenState 0 0x79808080808080808080 10).Driven 0 0x79808080808080808080 10 ∧
    9 < min (10#4).toNat 10 ∧ FirstTerminal 0x79808080808080808080 9 :=
  ⟨driven _ _ _, by decide, firstTerminal_nine⟩

theorem witness_GetI64DecodesGetU64 : (drivenState 0 1 1).Driven 0 1 1 := driven _ _ _

theorem witness_DecodeOverflowsExactlyWhen :
    (drivenState 0 0x80808080808080808080 10).Driven 0 0x80808080808080808080 10 ∧
    min (10#4).toNat 10 = 10 ∧ AllContinued 0x80808080808080808080 10 :=
  ⟨driven _ _ _, by decide, by unfold AllContinued; decide⟩

theorem witness_DecodeShortExactlyWhen : (drivenState 0 0 0).Driven 0 0 0 ∧
    min (0#4).toNat 10 < 10 ∧ AllContinued 0 (min (0#4).toNat 10) :=
  ⟨driven _ _ _, by decide, by unfold AllContinued; decide⟩

theorem witness_CountsAboveTenActAsTen : (drivenState 0 0 11).Driven 0 0 11 ∧ 10 < (11#4).toNat ∧
    ∃ t o, Answers .getI64 (drivenState 0 0 11) t o := by
  obtain ⟨t, o, h, -⟩ := answers_only .getI64 rfl 0 0 11
  exact ⟨driven _ _ _, by decide, t, o, h⟩

/-- Both clauses: lanes that agree below the count presented, and a success whose later lanes differ. -/
theorem witness_UnreadLanesDoNotMatter :
    (∃ t o, Answers .getU64 (drivenState 0 0xFF01 2) t o ∧ o.status = .ok ∧
      ∀ k, k < o.count.toNat → lane 0xFF01 k = lane 0x0001 k) ∧
    (∃ t o, Answers .getU64 (drivenState 0 0x0001 2) t o) ∧
    (∀ k, k < min (1#4).toNat 10 → lane 0xFF80 k = lane 0x0080 k) ∧
    ([0x80, 0x80, 0x80, 0x80, 0x80, 0x80, 0x80, 0x80, 0x80, 0x80] : List Byte).length = 10 := by
  obtain ⟨t, o, h, rfl⟩ := answers_only .getU64 rfl 0 0xFF01 2
  obtain ⟨t', o', h', -⟩ := answers_only .getU64 rfl 0 0x0001 2
  exact ⟨⟨t, _, h, by decide, by decide⟩, ⟨t', o', h'⟩, by decide, rfl⟩

theorem witness_TenthByteKeepsOneBit :
    (drivenState 0 0x79808080808080808080 10).Driven 0 0x79808080808080808080 10 ∧
    10 ≤ (10#4).toNat ∧ FirstTerminal 0x79808080808080808080 9 ∧ FirstTerminal 0x01808080808080808080 9 ∧
    (lane 0x01808080808080808080 9).getLsbD 0 = (lane 0x79808080808080808080 9).getLsbD 0 :=
  ⟨driven _ _ _, by decide, firstTerminal_nine, ⟨by decide, by decide⟩, by decide⟩

theorem answers_put_lanes (i : Instr) (h : appends i = true) (a : Wide) :
    ∃ t o, Answers i (drivenState a 0 0) t o ∧ o = commandOut i a 0 0 :=
  ⟨_, _, (answersAppending_of_driven (driven a 0 0) h rfl).toAnswers, rfl⟩

theorem witness_UnsignedRoundTrip : ∃ t o, Answers .putU64 (drivenState 300 0 0) t o ∧
    (drivenState 0 0xFF02AC 3).Driven 0 0xFF02AC 3 ∧ o.count.toNat ≤ (3#4).toNat ∧
    ∀ k, k < o.count.toNat → lane 0xFF02AC k = lane o.outBytes k := by
  obtain ⟨t, o, h, rfl⟩ := answers_put_lanes .putU64 rfl 300
  exact ⟨t, _, h, driven _ _ _, by decide, by decide⟩

theorem witness_SignedRoundTrip : ∃ t o, Answers .putI64 (drivenState 0xFFFFFFFFFFFFFFBF 0 0) t o ∧
    (drivenState 0 0x0181 2).Driven 0 0x0181 2 ∧ o.count.toNat ≤ (2#4).toNat ∧
    ∀ k, k < o.count.toNat → lane 0x0181 k = lane o.outBytes k := by
  obtain ⟨t, o, h, rfl⟩ := answers_put_lanes .putI64 rfl 0xFFFFFFFFFFFFFFBF
  exact ⟨t, _, h, driven _ _ _, by decide, by decide⟩

theorem witness_TruncationDetected : ∃ t o, Answers .putU64 (drivenState 300 0 0) t o ∧
    (drivenState 0 0xAC 1).Driven 0 0xAC 1 ∧ (1#4).toNat = o.count.toNat - 1 ∧
    ∀ k, k < (1#4).toNat → lane 0xAC k = lane o.outBytes k := by
  obtain ⟨t, o, h, rfl⟩ := answers_put_lanes .putU64 rfl 300
  exact ⟨t, _, h, driven _ _ _, by decide, by decide⟩

theorem witness_OverlongEncodingsAccepted : (drivenState 0 0x008080 3).Driven 0 0x008080 3 ∧
    IsVarintLength (0#64).toNat 1 ∧ 1 < 3 ∧ 3 ≤ 10 ∧ 3 ≤ (3#4).toNat ∧
    (∀ k, k < 1 → (lane 0x008080 k).toNat = (0#64).toNat / 2 ^ (7 * k) % 128 + 128) ∧
    (∀ k, k < 2 → 1 ≤ k → k + 1 < 3 → lane 0x008080 k = 0x80#8) ∧ lane 0x008080 (3 - 1) = 0x00#8 :=
  ⟨driven _ _ _, ⟨by decide, by decide, by decide, by decide⟩, by decide, by decide, by decide,
    by decide, by decide, by decide⟩

theorem witness_SignedCommandsAreCompositions :
    (∃ t o, Answers .putI64 (drivenState 0xFFFFFFFFFFFFFFFF 0 0) t o) ∧
    (∃ t o, Answers .getI64 (drivenState 0 1 1) t o) := by
  obtain ⟨t, o, h, -⟩ := answers_only .getI64 rfl 0 1 1
  exact ⟨answers_put _ rfl _ _ _, t, o, h⟩

theorem witness_StepOnlyAppends : ∃ t, step (programState (.command (some 0x00#7) (.literal 300))) = .next t ∧
    t.buf ≠ [] := ⟨_, rfl, by decide⟩

theorem witness_OnlyPutsWriteTheBuffer :
    (∃ t o, Answers .zzEnc8 (drivenState 0 0 0) t o) ∧
    (∃ t u, exec .putU64 (drivenState 0 0 0) = .next t ∧ exec .putU64 t = .next u) := by
  obtain ⟨t, o, h, -⟩ := answers_only .zzEnc8 rfl 0 0 0
  exact ⟨⟨t, o, h⟩, _, _, (answersAppending_of_driven (driven 0 0 0) rfl rfl).runs,
    (answersAppending_of_driven (a := 0) (b := 0) (n := 0) ⟨rfl, rfl, rfl⟩ rfl rfl).runs⟩

theorem witness_GetAtOffsetPresentsBuffer : Memory.wf State.reset.buf = true ∧
    0 ≤ Memory.size State.reset.buf ∧ Memory.size State.reset.buf < 1 := by decide

theorem witness_LiteralIsPresented : ((0 : Int) ≤ 255 ∧ (255 : Int) < 2 ^ 8) ∧
    ¬ ((0 : Int) ≤ 256 ∧ (256 : Int) < 2 ^ 8) ∧ (-2 ^ 7 ≤ (-128 : Int) ∧ (-128 : Int) < 2 ^ 7) ∧
    ¬ (-2 ^ 7 ≤ (128 : Int) ∧ (128 : Int) < 2 ^ 7) := by decide

/-- Both sides of the count: a byte below it, and, for a sequence of no byte, a lane above it; and the other forms' commands. -/
theorem witness_LiteralBytesArePresented : (0 < min 10 ([0x81, 0x00] : List Byte).length ∧
    min 10 ([] : List Byte).length ≤ 0) ∧ Instr.zzEnc8 ≠ .getU64 ∧ Instr.zzEnc8 ≠ .getI64 := by decide

theorem witness_GetSeesEarlierPut : (drivenState 300 0 0).Inv ∧ (drivenState 300 0 0).Driven 300 0 0 ∧
    (∃ t o, Answers .putU64 (drivenState 300 0 0) t o) ∧
    (∃ t o, Answers .putI64 (drivenState 300 0 0) t o) :=
  ⟨inv_driven _ _ _, driven _ _ _, answers_put _ rfl _ _ _, answers_put _ rfl _ _ _⟩

end Sys2Proof.Tests
end

section
/-! PROOF. What a step does with a settled command whose word is legal and whose operand is presented (spec 00_scope.md R15; 30_encoding.md R86). -/

namespace Sys2Proof.Machine

/-- A settled statement at the head of the program is issued on the state without it. -/
theorem step_of_settled {s : State} {c : Call} {rest : List Statement}
    (hp : s.program = ⟨c, true⟩ :: rest) : step s = issue c (s.withProgram rest) := by
  simp only [step, issueNext, hp, if_true]

/-- A command whose word decodes and whose operand is presented runs on the presented state. -/
theorem issueCommand_of_presented {w : CmdWord} {operand : Operand} {i : Instr} {s s' : State}
    (hd : decode w = .instr i) (ho : present i operand s = .ok s') :
    issueCommand (some w) operand s = exec i s' := by
  simp only [issueCommand, hd, ho]

/-- Raw port values suit every command, and are put on the operand ports as they are. -/
@[simp] theorem present_ports (i : Instr) (a : Option Wide) (b : Option Bus) (n : Option Count)
    (s : State) : present i (.ports a b n) s = .ok (s.setOperands a b n) := rfl

/-- Settles O6: the head statement is issued, its word decoded, its operand presented, and `exec` runs. -/
theorem stepRunsDecodedCommand : Obligations.StepRunsDecodedCommand := by
  refine ⟨fun s s' w operand i rest hp hd ho => ?_, present_ports⟩
  calc step s = issueCommand (some w) operand (s.withProgram rest) := step_of_settled hp
    _ = exec i s' := issueCommand_of_presented hd ho

end Sys2Proof.Machine
end

section
/-! PROOF. Facts that the statements of spec 10_state.md share: the command words of 30_encoding.md R81, what a command that answers a next state did, what presenting a well-formed operand answers, and what each stand-alone unit answers on driven inputs. -/

namespace Sys2Proof.Machine

/-! ## Command words -/

theorem decode_encode (i : Instr) : decode (encode i) = .instr i := by
  cases i <;> rfl

/-- A legal word is the word that R81 gives its instruction. -/
theorem encode_of_decode {w : CmdWord} {i : Instr} (hd : decode w = .instr i) : encode i = w := by
  suffices key : ∀ w : CmdWord,
      (match decode w with | .instr j => decide (encode j = w) | .reserved _ => true) = true by
    simpa [hd] using key w
  decide

/-! ## Commands -/

theorem State.Driven.unique {s : State} {a a' : Wide} {b b' : Bus} {n n' : Count}
    (h : s.Driven a b n) (h' : s.Driven a' b' n') : a = a' ∧ b = b' ∧ n = n' :=
  ⟨Option.some.inj (h.opa.symm.trans h'.opa), Option.some.inj (h.inBytes.symm.trans h'.inBytes),
    Option.some.inj (h.inAvail.symm.trans h'.inAvail)⟩

/-- What a command that answers a next state did: on driven operands it drove the outputs of `vz_core`, and left the buffer or appended to it within the host's bound (R31, R57). -/
theorem exec_next {i : Instr} {s t : State} (h : exec i s = .next t) :
    ∃ a b n m, s.Driven a b n ∧ t = (s.drive i (commandOut i a b n)).withBuf m ∧
      (m = s.buf ∨ ∃ bs : List Byte, m = Memory.append s.buf bs ∧
        fitsLimit s.bufLimit (Memory.size s.buf + bs.length) = true) := by
  rcases exec_cases i s with ⟨a, b, n, hd, -, hr⟩ | ⟨a, b, n, hd, -, hfit, hr⟩ |
    ⟨a, b, n, -, -, -, hr⟩ | ⟨-, hr⟩ <;> rw [hr] at h <;> cases h
  · exact ⟨a, b, n, s.buf, hd, rfl, Or.inl rfl⟩
  · exact ⟨a, b, n, _, hd, rfl, Or.inr ⟨_, rfl, by simpa using hfit⟩⟩

theorem appends_eq_true_iff (i : Instr) : appends i = true ↔ i = .putU64 ∨ i = .putI64 := by
  cases i <;> simp [appends]

/-- On driven operands, a command completes if its bytes, if any, fit the host's bound. -/
theorem exec_of_room {i : Instr} {s : State} {a : Wide} {b : Bus} {n : Count}
    (hd : s.Driven a b n) (hroom : appends i = true →
      fitsLimit s.bufLimit (Memory.size s.buf + (commandOut i a b n).count.toNat) = true) :
    ∃ t, exec i s = .next t ∧ t.program = s.program := by
  cases hi : appends i with
  | false =>
    have h := answersOnly_of_driven hd hi
    exact ⟨_, h.runs, h.frame.program⟩
  | true =>
    have h := answersAppending_of_driven hd hi (hroom hi)
    exact ⟨_, h.runs, h.frame.program⟩

/-- A put whose bytes do not fit the host's bound is refused (R57; log entry 7). -/
theorem exec_of_noRoom {i : Instr} {s : State} {a : Wide} {b : Bus} {n : Count}
    (hd : s.Driven a b n) (hi : appends i = true)
    (hfull : fitsLimit s.bufLimit (Memory.size s.buf + (commandOut i a b n).count.toNat) = false) :
    exec i s = .refused .bufferCannotGrow := by
  rw [exec_driven hd, if_pos hi]
  rcases s.driveAppend_cases i (commandOut i a b n) with ⟨hfit, -⟩ | ⟨-, hr⟩
  · simp [hfull] at hfit
  · exact hr

/-- The operand that a put takes from `opa`, as the statements write it (R82). -/
theorem opa_low64 (a : Wide) : a.extractLsb' 0 64 = a.setWidth 64 :=
  (BitVec.setWidth_eq_extractLsb' (by decide)).symm

/-- The count of `put_u64` is L(v) of its value (R131). -/
theorem isVarintLength_count_putU64 (a : Wide) (b : Bus) (n : Count) :
    IsVarintLength (putValueU64 a) (commandOut .putU64 a b n).count.toNat := by
  simpa [commandOut, putOut, varintEncoder_len, putValueU64, opa_low64]
    using isVarintLength_varintBytes (a.setWidth 64)

/-- The count of `put_i64` is L(v) of the zig-zag image of its value (R131, R146). -/
theorem isVarintLength_count_putI64 (a : Wide) (b : Bus) (n : Count) :
    IsVarintLength (putValueI64 a) (commandOut .putI64 a b n).count.toNat := by
  have hv : putValueI64 a = (zigzagEncode (a.setWidth 64)).toNat := by
    rw [putValueI64, ← toNat_zigzagEncode (by decide), Int.toNat_natCast]
  simpa [commandOut, putOut, varintEncoder_len, hv, opa_low64]
    using isVarintLength_varintBytes (zigzagEncode (a.setWidth 64))

/-! ## Operands -/

/-- A get at an offset within a canonical buffer is presented, on driven ports (R58). -/
theorem present_buffer_within {i : Instr} {s : State} {off : Nat} (hi : readsLanes i = true)
    (hwf : Memory.wf s.buf = true) (ho : off ≤ Memory.size s.buf) :
    ∃ data, present i (.buffer off) s = .ok (s.presentData data) := by
  obtain ⟨data, hdata, -, -⟩ := Memory.dataAt_of_wf hwf ho
  exact ⟨data, by simp [present, operandFits, hi, hdata]⟩

/-- A get at an offset beyond the end of the buffer is refused (R58). -/
theorem present_buffer_beyond {i : Instr} {s : State} {off : Nat} (hi : readsLanes i = true)
    (ho : Memory.size s.buf < off) : present i (.buffer off) s = .error .offsetBeyondBuffer := by
  simp [present, operandFits, hi, Memory.dataAt, Nat.not_le.mpr ho]

/-- A well-formed operand is presented on driven ports, unless it is an offset beyond the end of the buffer (R36, R58). -/
theorem present_of_wellFormed {i : Instr} {operand : Operand} {s : State}
    (hfits : operandFits i operand = true) (hdriven : operandDriven operand = true)
    (hwf : Memory.wf s.buf = true)
    (hwithin : ∀ off, operand = .buffer off → off ≤ Memory.size s.buf) :
    ∃ a b n, present i operand s = .ok (s.setOperands (some a) (some b) (some n)) := by
  cases operand with
  | literal v => exact ⟨_, _, _, if_pos hfits⟩
  | bytes data => exact ⟨_, _, _, if_pos hfits⟩
  | buffer off =>
    obtain ⟨data, hdata⟩ := present_buffer_within hfits hwf (hwithin off rfl)
    exact ⟨_, _, _, hdata⟩
  | ports a b n =>
    simp only [operandDriven, Bool.and_eq_true, Option.isSome_iff_exists] at hdriven
    obtain ⟨⟨⟨a, rfl⟩, b, rfl⟩, n, rfl⟩ := hdriven
    exact ⟨a, b, n, present_ports i _ _ _ s⟩

/-- Presenting an operand neither reads nor changes the program. -/
theorem present_withProgram (i : Instr) (operand : Operand) (s : State) (p : List Statement) :
    present i operand (s.withProgram p) = (present i operand s).map (·.withProgram p) := by
  unfold present
  split
  · cases operand with
    | literal v => rfl
    | bytes data => rfl
    | ports a b n => rfl
    | buffer off =>
      simp only [State.withProgram_buf]
      cases Memory.dataAt s.buf off <;> rfl
  · rfl

/-! ## The stand-alone units -/

theorem issue_encoder (v : Value) (s : State) : issue (.encoder (some v)) s =
    .next (s.withUnits { s.units with encValue := some v, encOut := some (varintEncoder v) }) := rfl

/-- The decoder never drives ILLEGAL (R34), so its fault branch is not taken. -/
theorem issue_decoder (b : Bus) (n : Count) (s : State) :
    issue (.decoder (some b) (some n)) s = .next (s.withUnits
      { s.units with decBytes := some b, decAvail := some n, decOut := some (varintDecoder b n) }) :=
  if_neg (varintDecoder_status_ne_illegal b n)

theorem issue_decoder_undriven {b : Option Bus} {n : Option Count} (h : b = none ∨ n = none)
    (s : State) : issue (.decoder b n) s = .refused .undrivenInput := by
  cases b with
  | none => rfl
  | some b =>
    cases n with
    | none => rfl
    | some n => simp at h

theorem issue_zigzagEncoder (w : ZzWidth) (x : BitVec w.bits) (s : State) :
    issue (.zigzagEncoder w (some x)) s = .next (s.withUnits { s.units with
      zzeIn := s.units.zzeIn.set w x, zzeOut := s.units.zzeOut.set w (zigzagEncode x) }) := rfl

theorem issue_zigzagDecoder (w : ZzWidth) (u : BitVec w.bits) (s : State) :
    issue (.zigzagDecoder w (some u)) s = .next (s.withUnits { s.units with
      zzdIn := s.units.zzdIn.set w u, zzdOut := s.units.zzdOut.set w (zigzagDecode u) }) := rfl

end Sys2Proof.Machine
end

section
/-! PROOF. The invariant of State.Inv holds after power-up and is kept by every step (spec 10_state.md R31, R35; 20_memory.md R55, R57). -/

namespace Sys2Proof.Machine

/-- Settles O2: nothing is driven, and the buffer is empty. -/
theorem resetMeetsInvariant : Obligations.ResetMeetsInvariant where
  core := rfl
  units := ⟨rfl, rfl, fun w => by cases w <;> rfl, fun w => by cases w <;> rfl⟩
  buf := Memory.wf_nil
  limit := rfl

/-- On driven inputs, the outputs that the invariant wants are those of `vz_core` on them. -/
theorem State.Driven.coreFunction {s : State} {a : Wide} {b : Bus} {n : Count}
    (hd : s.Driven a b n) {c : CmdWord} (hc : s.cmd = some c) :
    s.coreFunction = some (vzCore c a b n) := by
  simp [State.coreFunction, hc, hd.opa, hd.inBytes, hd.inAvail]

/-- A command re-establishes the outputs of `vz_core` and keeps the rest of the invariant. The outputs before it need not agree: presenting its operand has changed the ports under them. -/
theorem exec_inv {i : Instr} {s t : State} (h : exec i s = .next t) (hunits : s.units.Agrees)
    (hwf : Memory.wf s.buf = true) (hlim : fitsLimit s.bufLimit (Memory.size s.buf) = true) :
    t.Inv := by
  obtain ⟨a, b, n, m, hd, rfl, hm⟩ := exec_next h
  have hd' : ((s.drive i (commandOut i a b n)).withBuf m).Driven a b n :=
    ⟨hd.opa, hd.inBytes, hd.inAvail⟩
  have hcore := hd'.coreFunction (c := encode i) rfl
  rw [vzCore_encode] at hcore
  rcases hm with rfl | ⟨bs, rfl, hfit⟩
  · exact ⟨hcore.symm, hunits, hwf, hlim⟩
  · exact ⟨hcore.symm, hunits, Memory.wf_append _ _ hwf, by simpa using hfit⟩

/-- An operation of a stand-alone unit keeps the invariant if the unit's ports agree after it. -/
theorem State.Inv.withUnits {s : State} (h : s.Inv) {u : Units} (hu : u.Agrees) :
    (s.withUnits u).Inv :=
  ⟨h.core, hu, h.buf, h.limit⟩

theorem State.Inv.withProgram {s : State} (h : s.Inv) (p : List Statement) :
    (s.withProgram p).Inv :=
  ⟨h.core, h.units, h.buf, h.limit⟩

/-- Setting the input at one width, and the output there to the function of that input, keeps a zig-zag unit in agreement at every width. -/
theorem ZzPorts.agree_set {inp out : ZzPorts} {f : {n : Nat} → BitVec n → BitVec n}
    (h : ∀ w : ZzWidth, out.get w = (inp.get w).map f) (w : ZzWidth) (x : BitVec w.bits) :
    ∀ w' : ZzWidth, (out.set w (f x)).get w' = ((inp.set w x).get w').map f := by
  intro w'
  by_cases hw : w' = w
  · subst hw
    simp
  · rw [ZzPorts.get_set_other _ _ hw, ZzPorts.get_set_other _ _ hw, h]

/-- Issuing one operation keeps the invariant. -/
theorem issue_inv {c : Call} {s t : State} (h : issue c s = .next t) (hs : s.Inv) : t.Inv := by
  rcases issue_next h with ⟨w, operand, i, s', -, -, hp, he⟩ | ⟨v, -, rfl⟩ | ⟨b, n, -, rfl⟩ |
    ⟨w, x, -, rfl⟩ | ⟨w, u, -, rfl⟩
  · obtain ⟨a, b, n, rfl⟩ := present_cases hp
    exact exec_inv he hs.units hs.buf hs.limit
  · exact hs.withUnits { hs.units with encoder := rfl }
  · exact hs.withUnits { hs.units with decoder := rfl }
  · exact hs.withUnits { hs.units with
      zigzagEncoder := ZzPorts.agree_set hs.units.zigzagEncoder w x }
  · exact hs.withUnits { hs.units with
      zigzagDecoder := ZzPorts.agree_set hs.units.zigzagDecoder w u }

/-- Settles O3: a step takes its statement off the program and issues it. -/
theorem stepKeepsInvariant : Obligations.StepKeepsInvariant := by
  intro s t hs h
  obtain ⟨c, rest, -, hi⟩ := step_next h
  exact issue_inv hi (hs.withProgram rest)

end Sys2Proof.Machine
end

section
/-! PROOF. No step faults: the one fault of the model, ILLEGAL on a stand-alone decoder, is not reached (spec 10_state.md R34; 93_implementation_defined.md I3). -/

namespace Sys2Proof.Machine

theorem exec_safe (i : Instr) (s : State) : safeOutcome (exec i s) := by
  rcases exec_cases i s with ⟨_, _, _, -, -, hr⟩ | ⟨_, _, _, -, -, -, hr⟩ |
    ⟨_, _, _, -, -, -, hr⟩ | ⟨-, hr⟩ <;> rw [hr] <;> trivial

theorem issueCommand_safe (cmd : Option CmdWord) (operand : Operand) (s : State) :
    safeOutcome (issueCommand cmd operand s) := by
  unfold issueCommand
  split
  · trivial
  · split
    · trivial
    · split
      · exact exec_safe _ _
      · trivial

theorem issue_safe (c : Call) (s : State) : safeOutcome (issue c s) := by
  cases c with
  | command cmd operand => exact issueCommand_safe cmd operand s
  | encoder v => cases v <;> trivial
  | decoder b n =>
    by_cases hu : b = none ∨ n = none
    · rw [issue_decoder_undriven hu]
      trivial
    · obtain ⟨⟨b, rfl⟩, n, rfl⟩ : (∃ b', b = some b') ∧ ∃ n', n = some n' := by
        simpa [← Option.ne_none_iff_exists'] using hu
      rw [issue_decoder]
      trivial
  | zigzagEncoder w x => cases x <;> trivial
  | zigzagDecoder w u => cases u <;> trivial

/-- Settles O4: a step issues its statement or is refused, and nothing that is issued faults. -/
theorem stepNeverFaults : Obligations.StepNeverFaults := by
  intro s
  unfold step issueNext
  split
  · trivial
  · split
    · exact issue_safe _ _
    · trivial

end Sys2Proof.Machine
end

section
/-! PROOF. Outputs are a function of the inputs now on the ports (spec 10_state.md R31), operations on undriven inputs are refused (R36), and the width limits of R27. -/

namespace Sys2Proof.Machine

/-- Settles O5: the tie-offs are the constants of the configuration, and the byte limit is the third. -/
theorem widthLimitConstants : Obligations.WidthLimitConstants :=
  ⟨rfl, rfl, rfl, byteLimit_eq⟩

/-- Settles O13: commands by `exec_undriven`, the rest by the unit whose input is not driven. -/
theorem undrivenInputRefused : Obligations.UndrivenInputRefused :=
  ⟨fun i _ h => exec_undriven h i, fun _ _ => rfl, fun _ => rfl,
    fun _ _ s h => issue_decoder_undriven h s, fun _ _ => ⟨rfl, rfl⟩⟩

/-- A command that answers drives the outputs of `vz_core` on its word and the operand ports. -/
theorem coreOut_of_exec {i : Instr} {s t : State} {a : Wide} {b : Bus} {n : Count}
    (hd : s.Driven a b n) (h : exec i s = .next t) :
    t.coreOut = some (vzCore (encode i) a b n) := by
  obtain ⟨a', b', n', m, hd', rfl, -⟩ := exec_next h
  obtain ⟨rfl, rfl, rfl⟩ := hd.unique hd'
  rw [vzCore_encode]
  rfl

theorem encOut_of_issue {v : Option Value} {s t : State} (h : issue (.encoder v) s = .next t) :
    t.units.encOut = v.map varintEncoder := by
  cases v <;> cases h
  rfl

theorem decOut_of_issue {b : Option Bus} {n : Option Count} {s t : State}
    (h : issue (.decoder b n) s = .next t) :
    ∃ b' n', b = some b' ∧ n = some n' ∧ t.units.decOut = some (varintDecoder b' n') := by
  rcases issue_next h with ⟨_, _, _, _, hc, -⟩ | ⟨_, hc, -⟩ | ⟨b', n', hc, rfl⟩ | ⟨_, _, hc, -⟩ |
    ⟨_, _, hc, -⟩ <;> cases hc
  exact ⟨b', n', rfl, rfl, rfl⟩

theorem zzeOut_of_issue {w : ZzWidth} {x : Option (BitVec w.bits)} {s t : State}
    (h : issue (.zigzagEncoder w x) s = .next t) :
    t.units.zzeOut.get w = x.map zigzagEncode := by
  cases x <;> cases h
  exact ZzPorts.get_set_same ..

theorem zzdOut_of_issue {w : ZzWidth} {u : Option (BitVec w.bits)} {s t : State}
    (h : issue (.zigzagDecoder w u) s = .next t) :
    t.units.zzdOut.get w = u.map zigzagDecode := by
  cases u <;> cases h
  exact ZzPorts.get_set_same ..

/-- Settles O16: each output is the same function of the same inputs, from either state. -/
theorem outputsAreFunctionOfInputs : Obligations.OutputsAreFunctionOfInputs := by
  refine ⟨fun i s s' t t' a b n hd hd' h h' => ?_, fun s s' t t' v h h' => ?_,
    fun s s' t t' b n h h' => ?_, fun s s' t t' w x => ⟨fun h h' => ?_, fun h h' => ?_⟩⟩
  · exact ⟨coreOut_of_exec hd h, (coreOut_of_exec hd' h').trans (coreOut_of_exec hd h).symm⟩
  · exact (encOut_of_issue h').trans (encOut_of_issue h).symm
  · obtain ⟨b₁, n₁, rfl, rfl, hout⟩ := decOut_of_issue h
    obtain ⟨_, _, ⟨⟩, ⟨⟩, hout'⟩ := decOut_of_issue h'
    exact hout'.trans hout.symm
  · exact (zzeOut_of_issue h').trans (zzeOut_of_issue h).symm
  · exact (zzdOut_of_issue h').trans (zzdOut_of_issue h).symm

end Sys2Proof.Machine
end

section
/-! PROOF. The stand-alone units complete with what their rules give, and leave the rest alone (spec 10_state.md R25, R26, R28, R29). -/

namespace Sys2Proof.Machine

theorem zzWidth_bits_pos (w : ZzWidth) : 0 < w.bits := by
  cases w <;> decide

/-- Settles O47: each unit answers its function (`issue_encoder` and its companions), which is the one its rule gives. -/
theorem standAloneUnitsComplete : Obligations.StandAloneUnitsComplete := by
  refine fun s => ⟨fun v => ?encoder, fun a b n => ?decoder, fun w x => ?zigzagEncoder,
    fun w u => ?zigzagDecoder⟩
  case encoder =>
    refine ⟨_, varintEncoder v, issue_encoder v s, rfl, ?_⟩
    rw [varintEncoder_len]
    exact ⟨isVarintLength_varintBytes v, varintEncoder_holds v⟩
  case decoder =>
    rw [vzCore_encode]
    exact ⟨_, varintDecoder b n, issue_decoder b n s, rfl, rfl, rfl, fun _ => rfl⟩
  case zigzagEncoder =>
    exact ⟨_, zigzagEncode x, issue_zigzagEncoder w x s, rfl, ZzPorts.get_set_same ..,
      ZzPorts.get_set_same .., toNat_zigzagEncode (zzWidth_bits_pos w) x,
      fun w' hw => ⟨ZzPorts.get_set_other _ _ hw, ZzPorts.get_set_other _ _ hw⟩⟩
  case zigzagDecoder =>
    exact ⟨_, zigzagDecode u, issue_zigzagDecoder w u s, rfl, ZzPorts.get_set_same ..,
      ZzPorts.get_set_same .., toInt_zigzagDecode (zzWidth_bits_pos w) u,
      fun w' hw => ⟨ZzPorts.get_set_other _ _ hw, ZzPorts.get_set_other _ _ hw⟩⟩

end Sys2Proof.Machine
end

section
/-! PROOF. The decoder's state machine (spec 10_state.md R32) ends in the result of the unrolled decode (41_varint.md R135). -/

namespace Sys2Proof.Machine

/-- A final state stays. -/
theorem decPhaseRun_finished (bytes : Bus) (avail : Count) (k : Nat) (r : DecodeResult) :
    decPhaseRun bytes avail k (.finished r) = .finished r := by
  induction k with
  | zero => rfl
  | succ k ih => exact ih

/-- With `left` of the usable bytes still to read, `left + 1` transitions reach the result of the loop: one per byte, and one that sees the input exhausted. -/
theorem decPhaseRun_reading (bytes : Bus) (avail : Count) (left index : Nat) (acc : Value)
    (hleft : index + left = usableCount avail) (k : Nat) (hk : left + 1 ≤ k) :
    decPhaseRun bytes avail k (.reading index acc) =
      .finished (decodeLoop bytes left index acc) := by
  obtain ⟨k, rfl⟩ : ∃ j, k = j + 1 := ⟨k - 1, by omega⟩
  induction left generalizing index acc k with
  | zero =>
    have hend : ¬ index < usableCount avail := by omega
    rw [decPhaseRun, decPhaseNext, if_neg hend, decodeLoop]
    split <;> exact decPhaseRun_finished ..
  | succ left ih =>
    have hmore : index < usableCount avail := by omega
    rw [decPhaseRun, decPhaseNext, if_pos hmore, decodeLoop]
    cases hc : continuation (lane bytes index) with
    | false => exact decPhaseRun_finished ..
    | true =>
      obtain ⟨k, rfl⟩ : ∃ j, k = j + 1 := ⟨k - 1, by omega⟩
      exact ih (index + 1) _ (by omega) k (by omega)

/-- Settles O36: at most 10 bytes are usable, so 11 transitions suffice. -/
theorem stateMachineGivesTheDecode : Obligations.StateMachineGivesTheDecode := by
  refine ⟨rfl, fun b n k hk => decPhaseRun_reading b n (usableCount n) 0 0#64 (by omega) k ?_⟩
  have := usableCount_le n
  omega

end Sys2Proof.Machine
end

section
/-! PROOF. A well-formed statement runs, unless its offset is beyond the host's buffer or its put does not fit (spec 10_state.md R36; 20_memory.md R57, R58; 30_encoding.md R86). -/

namespace Sys2Proof.Machine

/-- A well-formed command has a legal word, an operand form of that command, and driven ports. -/
theorem callWellFormed_command {w : CmdWord} {operand : Operand}
    (h : callWellFormed (.command (some w) operand) = true) :
    ∃ i, decode w = .instr i ∧ operandFits i operand = true ∧ operandDriven operand = true := by
  cases hd : decode w with
  | instr i => exact ⟨i, rfl, by simpa [callWellFormed, hd] using h⟩
  | reserved why => simp [callWellFormed, hd] at h

/-- On its presented operand, a command is a put without room exactly when the bytes it would append do not fit (log entry 7). -/
theorem lacksRoom_iff {s s' : State} {w : CmdWord} {operand : Operand} {i : Instr} {a : Wide}
    {b : Bus} {n : Count} (hw : decode w = .instr i) (hp : present i operand s = .ok s')
    (hd : s'.Driven a b n) :
    s.LacksRoom (.command (some w) operand) ↔ appends i = true ∧
      fitsLimit s.bufLimit (Memory.size s.buf + (commandOut i a b n).count.toNat) = false := by
  constructor
  · rintro ⟨j, operand', s'', a', b', n', len, hc, hp', hd', hlen, hfull⟩
    obtain ⟨rfl, rfl⟩ : w = encode j ∧ operand = operand' := by simpa using hc
    obtain rfl : j = i := by simpa [decode_encode] using hw
    obtain rfl : s' = s'' := by simpa [hp] using hp'
    obtain ⟨rfl, rfl, rfl⟩ := hd.unique hd'
    rcases hlen with ⟨rfl, hlen⟩ | ⟨rfl, hlen⟩
    · exact ⟨rfl, hlen.unique (isVarintLength_count_putU64 a b n) ▸ hfull⟩
    · exact ⟨rfl, hlen.unique (isVarintLength_count_putI64 a b n) ▸ hfull⟩
  · rintro ⟨hi, hfull⟩
    obtain rfl := encode_of_decode hw
    refine ⟨i, operand, s', a, b, n, _, rfl, hp, hd, ?_, hfull⟩
    rcases (appends_eq_true_iff i).mp hi with rfl | rfl
    · exact Or.inl ⟨rfl, isVarintLength_count_putU64 a b n⟩
    · exact Or.inr ⟨rfl, isVarintLength_count_putI64 a b n⟩

/-- Whether a put has room depends on the buffer and its bound, not on the program. -/
theorem State.LacksRoom.withProgram {s : State} {c : Call} (h : s.LacksRoom c)
    (p : List Statement) : (s.withProgram p).LacksRoom c := by
  obtain ⟨i, operand, s', a, b, n, len, hc, hp, hd, hlen, hfull⟩ := h
  refine ⟨i, operand, s'.withProgram p, a, b, n, len, hc, ?_, ⟨hd.opa, hd.inBytes, hd.inAvail⟩,
    hlen, hfull⟩
  rw [present_withProgram, hp]
  rfl

theorem State.lacksRoom_withProgram (s : State) (c : Call) (p : List Statement) :
    (s.withProgram p).LacksRoom c ↔ s.LacksRoom c :=
  ⟨fun h => h.withProgram s.program, fun h => h.withProgram p⟩

/-- A well-formed get beyond the end of the buffer is refused (R58). -/
theorem issue_of_readsBeyond {c : Call} {s : State} (hc : callWellFormed c = true)
    (h : s.ReadsBeyond c) : issue c s = .refused .offsetBeyondBuffer := by
  obtain ⟨w, off, rfl, ho⟩ := h
  obtain ⟨i, hw, hfits, -⟩ := callWellFormed_command hc
  simp only [issue, issueCommand, hw, present_buffer_beyond hfits ho]

/-- A put without room for its bytes is refused (R57). -/
theorem issue_of_lacksRoom {c : Call} {s : State} (h : s.LacksRoom c) :
    issue c s = .refused .bufferCannotGrow := by
  obtain ⟨i, operand, s', a, b, n, len, rfl, hp, hd, -⟩ := id h
  obtain ⟨hi, hfull⟩ := (lacksRoom_iff (decode_encode i) hp hd).mp h
  rw [issue, issueCommand_of_presented (decode_encode i) hp]
  obtain ⟨_, _, _, rfl⟩ := present_cases hp
  exact exec_of_noRoom hd hi hfull

/-- A well-formed command runs unless the buffer alone prevents it. -/
theorem issue_command_runs {w : CmdWord} {operand : Operand} {s : State}
    (hc : callWellFormed (.command (some w) operand) = true) (hwf : Memory.wf s.buf = true)
    (hread : ¬ s.ReadsBeyond (.command (some w) operand))
    (hroom : ¬ s.LacksRoom (.command (some w) operand)) :
    ∃ t, issue (.command (some w) operand) s = .next t ∧ t.program = s.program := by
  obtain ⟨i, hw, hfits, hdriven⟩ := callWellFormed_command hc
  have hwithin : ∀ off, operand = .buffer off → off ≤ Memory.size s.buf := by
    rintro off rfl
    exact Nat.le_of_not_lt fun ho => hread ⟨w, off, rfl, ho⟩
  obtain ⟨a, b, n, hp⟩ := present_of_wellFormed hfits hdriven hwf hwithin
  have hd : (s.setOperands (some a) (some b) (some n)).Driven a b n := ⟨rfl, rfl, rfl⟩
  rw [issue, issueCommand_of_presented hw hp]
  refine exec_of_room hd fun hi => ?_
  simpa [lacksRoom_iff hw hp hd, hi] using hroom

/-- A well-formed call runs unless the buffer alone prevents it. -/
theorem issue_runs {c : Call} {s : State} (hc : callWellFormed c = true)
    (hwf : Memory.wf s.buf = true) (hread : ¬ s.ReadsBeyond c) (hroom : ¬ s.LacksRoom c) :
    ∃ t, issue c s = .next t ∧ t.program = s.program := by
  cases c with
  | command cmd operand =>
    cases cmd with
    | none => cases hc
    | some w => exact issue_command_runs hc hwf hread hroom
  | encoder v =>
    obtain ⟨v, rfl⟩ := Option.isSome_iff_exists.mp hc
    exact ⟨_, issue_encoder v s, rfl⟩
  | decoder b n =>
    simp only [callWellFormed, Bool.and_eq_true, Option.isSome_iff_exists] at hc
    obtain ⟨⟨b, rfl⟩, n, rfl⟩ := hc
    exact ⟨_, issue_decoder b n s, rfl⟩
  | zigzagEncoder w x =>
    obtain ⟨x, rfl⟩ := Option.isSome_iff_exists.mp hc
    exact ⟨_, issue_zigzagEncoder w x s, rfl⟩
  | zigzagDecoder w u =>
    obtain ⟨u, rfl⟩ := Option.isSome_iff_exists.mp hc
    exact ⟨_, issue_zigzagDecoder w u s, rfl⟩

/-- Settles O15: a step is its statement issued without it, and what the buffer prevents is refused by name. -/
theorem wellFormedStatementRuns : Obligations.WellFormedStatementRuns := by
  rintro s ⟨c, settled⟩ rest hp hst hwf
  obtain ⟨hc, rfl⟩ : callWellFormed c = true ∧ settled = true := by
    simpa [statementWellFormed] using hst
  rw [step_of_settled hp]
  refine ⟨fun h => issue_of_readsBeyond hc h, fun h => issue_of_lacksRoom (h.withProgram rest),
    fun hread hroom => ?_⟩
  exact issue_runs hc hwf hread ((s.lacksRoom_withProgram c rest).not.mpr hroom)

end Sys2Proof.Machine
end

section
/-! PROOF. Facts that the statements of spec 20_memory.md share: what a command that answered did to the buffer, what the host presents of a byte sequence, and that a decode of encoded lanes gives the value back. -/

namespace Sys2Proof.Machine

/-! ## Commands -/

theorem appends_eq_false {i : Instr} (hu : i ≠ .putU64) (hi : i ≠ .putI64) : appends i = false :=
  Bool.eq_false_iff.mpr fun h => ((appends_eq_true_iff i).mp h).elim hu hi

/-- The count of a put is the length of an encoding, so it is between 1 and 10 (R57, R131). -/
theorem isVarintLength_count_of_appends {i : Instr} (hi : appends i = true) (a : Wide) (b : Bus)
    (n : Count) : ∃ v, IsVarintLength v (commandOut i a b n).count.toNat := by
  rcases (appends_eq_true_iff i).mp hi with rfl | rfl
  · exact ⟨_, isVarintLength_count_putU64 a b n⟩
  · exact ⟨_, isVarintLength_count_putI64 a b n⟩

/-- A command leaves the operand ports driven as they were. -/
theorem CommandFrame.driven {i : Instr} {s t : State} {a : Wide} {b : Bus} {n : Count}
    (h : CommandFrame i s t) (hd : s.Driven a b n) : t.Driven a b n :=
  ⟨h.opa.trans hd.opa, h.inBytes.trans hd.inBytes, h.inAvail.trans hd.inAvail⟩

/-- A command that is no put and answers a next state did so on driven operands, and stored nothing (R59). -/
theorem answersOnly_of_exec {i : Instr} {s t : State} (hi : appends i = false)
    (h : exec i s = .next t) :
    ∃ a b n, s.Driven a b n ∧ AnswersOnly i s t (commandOut i a b n) := by
  obtain ⟨a, b, n, -, hd, -⟩ := exec_next h
  have hans := answersOnly_of_driven hd hi
  rw [hans.runs] at h
  cases h
  exact ⟨a, b, n, hd, hans⟩

/-- A put that answers a next state did so on driven operands, and its bytes were appended (R57). -/
theorem answersAppending_of_exec {i : Instr} {s t : State} (hi : appends i = true)
    (h : exec i s = .next t) :
    ∃ a b n, s.Driven a b n ∧ AnswersAppending i s t (commandOut i a b n) := by
  obtain ⟨a, b, n, -, hd, -⟩ := exec_next h
  cases hfit : fitsLimit s.bufLimit (Memory.size s.buf + (commandOut i a b n).count.toNat) with
  | false => simp [exec_of_noRoom hd hi hfit] at h
  | true =>
    have hans := answersAppending_of_driven hd hi hfit
    rw [hans.runs] at h
    cases h
    exact ⟨a, b, n, hd, hans⟩

/-! ## What the host presents of a byte sequence -/

/-- Ten lanes show of a sequence what there is of it, and 0x00 above its end (R58). -/
theorem lane_packLanes_take (data : List Byte) {k : Nat} (hk : k < 10) :
    lane (packLanes (data.take byteLimit)) k = data.getD k 0#8 := by
  simp [lane_packLanes _ k hk, List.getD, hk]

theorem toNat_presentedCount (m : Nat) :
    (BitVec.ofNat 4 (presentedCount m)).toNat = min 10 m := by
  simp only [presentedCount, byteLimit_eq, BitVec.toNat_ofNat]
  omega

/-- Presenting a sequence drives its first `min(10, |data|)` bytes and 0x00 above, on the operand ports only (R58). -/
theorem presentData_spec (s : State) (data : List Byte) : ∃ a b n,
    s.presentData data = s.setOperands (some a) (some b) (some n) ∧
    n.toNat = min 10 data.length ∧
    (∀ k, k < n.toNat → data[k]? = some (lane b k)) ∧
    (∀ k, n.toNat ≤ k → k < 10 → lane b k = 0x00#8) := by
  refine ⟨_, _, _, rfl, toNat_presentedCount _, fun k hk => ?_, fun k hk h10 => ?_⟩ <;>
    rw [toNat_presentedCount] at hk
  · have hlt : k < data.length := by omega
    rw [lane_packLanes_take data (by omega)]
    simp [hlt]
  · have hge : data.length ≤ k := by omega
    rw [lane_packLanes_take data h10]
    simp [List.getD, hge]

/-! ## A decode of encoded lanes -/

/-- The encoding of a value, at a length that the value fits in, denotes the value (R71). -/
theorem denoted_of_holds {bus : Bus} {v : Value} {len : Nat} (h : HoldsEncoding bus v.toNat len)
    (hfits : v.toNat < 2 ^ (7 * len)) : denoted bus len = v := by
  apply BitVec.eq_of_getLsbD_eq
  intro j hj
  rw [getLsbD_denoted bus len j hj]
  by_cases hlt : j / 7 < len
  · have hbit : 7 * (j / 7) + j % 7 = j := Nat.div_add_mod j 7
    have hmod : j % 7 < 7 := Nat.mod_lt _ (by decide)
    rw [BitVec.getLsbD, toNat_payload_of_holds h hlt, show 128 = 2 ^ 7 from rfl,
      Nat.testBit_mod_two_pow, Nat.testBit_div_two_pow, Nat.add_comm (j % 7), hbit]
    simp [hlt, hmod, BitVec.getLsbD]
  · have hpow : 2 ^ (7 * len) ≤ 2 ^ j := Nat.pow_le_pow_right (by decide) (by omega)
    have hzero : v.getLsbD j = false := Nat.testBit_lt_two_pow (by omega)
    simp [hlt, hzero]

/-- The decoder gives back the value of an encoding at its length, whatever follows (R136, R143). -/
theorem varintDecoder_of_holds {bus : Bus} {avail : Count} {v : Value} {len : Nat}
    (hlen : IsVarintLength v.toNat len) (h : HoldsEncoding bus v.toNat len)
    (havail : len ≤ avail.toNat) :
    varintDecoder bus avail = ⟨.ok, v, BitVec.ofNat 4 len⟩ := by
  have hpos := hlen.pos
  have hle := hlen.le
  have husable : len - 1 < usableCount avail := by
    rw [usableCount_eq]
    omega
  rw [varintDecoder, decodeLanes_terminal bus avail _ husable (firstTerminal_of_holds h hpos),
    Nat.sub_add_cancel hpos, denoted_of_holds h hlen.fits]
  rfl

/-- The decoder undoes the encoder on any bus that carries the encoder's valid lanes (R143). -/
theorem varintDecoder_of_encoder_lanes {bus : Bus} {avail : Count} (v : Value)
    (havail : (varintEncoder v).len.toNat ≤ avail.toNat)
    (hlanes : ∀ k, k < (varintEncoder v).len.toNat →
      lane bus k = lane (varintEncoder v).bytes k) :
    varintDecoder bus avail = ⟨.ok, v, (varintEncoder v).len⟩ := by
  rw [varintEncoder_len] at havail hlanes
  exact varintDecoder_of_holds (isVarintLength_varintBytes v)
    (fun k hk => by rw [hlanes k hk, varintEncoder_holds v k hk]) havail

/-- Zig-zag decode undoes zig-zag encode, at every width (R103). -/
theorem zigzagDecode_zigzagEncode {n : Nat} (x : BitVec n) :
    zigzagDecode (zigzagEncode x) = x := by
  apply BitVec.eq_of_getLsbD_eq
  intro i hi
  rw [getLsbD_zigzagDecode _ i hi, getLsbD_zigzagEncode x 0 (by omega)]
  by_cases hlast : i + 1 < n
  · simp [getLsbD_zigzagEncode x (i + 1) hlast]
  · obtain rfl : i = n - 1 := by omega
    have htop : (zigzagEncode x).getLsbD (n - 1 + 1) = false :=
      BitVec.getLsbD_of_ge _ _ (by omega)
    simp [htop, BitVec.msb_eq_getLsbD_last]

end Sys2Proof.Machine
end

section
/-! PROOF. The host's buffer: a put without room is refused, an append is the only write, and a get reads what is there (spec 20_memory.md R56 to R61). -/

namespace Sys2Proof.Machine

/-- Settles O28: the count of a put is L(v), and it does not fit the bound. -/
theorem putWithoutRoomRefused : Obligations.PutWithoutRoomRefused := by
  intro s a b n bound len hd hlimit hbound
  have hfull : fitsLimit s.bufLimit (Memory.size s.buf + len) = false := by
    simpa [hlimit, fitsLimit] using hbound
  refine ⟨fun hlen => exec_of_noRoom hd rfl ?_, fun hlen => exec_of_noRoom hd rfl ?_⟩
  · rwa [(isVarintLength_count_putU64 a b n).unique hlen]
  · rwa [(isVarintLength_count_putI64 a b n).unique hlen]

@[simp] theorem Memory.append_nil (m : Memory) : Memory.append m [] = m := by
  simp [Memory.append, cellsFrom]

/-- A command's next buffer is the old one with at most 10 bytes appended, none unless it is a put (R57). -/
theorem exec_buf {i : Instr} {s t : State} (h : exec i s = .next t) :
    ∃ bs : List Byte, t.buf = Memory.append s.buf bs ∧ bs.length ≤ 10 ∧
      (bs ≠ [] → appends i = true) := by
  rcases exec_cases i s with ⟨a, b, n, -, -, hr⟩ | ⟨a, b, n, -, hi, -, hr⟩ |
    ⟨a, b, n, -, -, -, hr⟩ | ⟨-, hr⟩ <;> rw [hr] at h <;> cases h
  · exact ⟨[], by simp, by simp, by simp⟩
  · obtain ⟨v, hlen⟩ := isVarintLength_count_of_appends hi a b n
    exact ⟨_, rfl, by simpa using hlen.le, fun _ => hi⟩

/-- The next buffer of any operation is the old one with at most 10 bytes appended, none unless it is a put's command (R56; log entry 10). -/
theorem issue_buf {c : Call} {s t : State} (h : issue c s = .next t) :
    ∃ bs : List Byte, t.buf = Memory.append s.buf bs ∧ bs.length ≤ 10 ∧
      (bs ≠ [] → ∃ operand, c = .command (some (encode .putU64)) operand ∨
        c = .command (some (encode .putI64)) operand) := by
  rcases issue_next h with ⟨w, operand, i, s', rfl, hw, hp, he⟩ | ⟨_, -, rfl⟩ | ⟨_, _, -, rfl⟩ |
    ⟨_, _, -, rfl⟩ | ⟨_, _, -, rfl⟩
  · obtain ⟨a, b, n, rfl⟩ := present_cases hp
    obtain ⟨bs, hbuf, hle, hput⟩ := exec_buf he
    refine ⟨bs, hbuf, hle, fun hne => ⟨operand, ?_⟩⟩
    rw [← encode_of_decode hw]
    exact ((appends_eq_true_iff i).mp (hput hne)).imp (fun hi => by rw [hi]) (fun hi => by rw [hi])
  all_goals exact ⟨[], by simp, by simp, by simp⟩

/-- Settles O42: a step issues the first statement of its program (`issue_buf`), and an append leaves what was there. -/
theorem stepOnlyAppends : Obligations.StepOnlyAppends := by
  intro s t h
  obtain ⟨c, rest, hprog, hissue⟩ := step_next h
  obtain ⟨bs, hbuf, hle, hput⟩ := issue_buf hissue
  refine ⟨⟨bs, hbuf, hle, fun hne => ?_⟩, fun k x hk => ?_⟩
  · obtain ⟨operand, hc⟩ := hput hne
    exact ⟨operand, rest, hc.imp (fun hc => by rw [hprog, hc]) (fun hc => by rw [hprog, hc])⟩
  · rw [hbuf]
    exact Memory.read_append_left _ _ _ _ hk

/-- Settles O43: a command leaves its operands on the ports, so that it drives the same outputs, and a put appends as many bytes, when it runs again. -/
theorem onlyPutsWriteTheBuffer : Obligations.OnlyPutsWriteTheBuffer := by
  refine ⟨fun i s t o hu hi h => ?_, fun i s t u hi h h' => ?_⟩
  · have happ := appends_eq_false hu hi
    obtain ⟨a, b, n, hd, hans⟩ := answersOnly_of_exec happ h.runs
    obtain rfl := h.out_eq hd
    exact ⟨hans.kept, _, answersOnly_of_driven (hans.frame.driven hd) happ⟩
  · have happ := (appends_eq_true_iff i).mpr hi
    obtain ⟨a, b, n, hd, hans⟩ := answersAppending_of_exec happ h
    obtain ⟨a', b', n', hd', hans'⟩ := answersAppending_of_exec happ h'
    obtain ⟨rfl, rfl, rfl⟩ := (hans.frame.driven hd).unique hd'
    obtain ⟨v, hlen⟩ := isVarintLength_count_of_appends happ a b n
    have hpos := hlen.pos
    have hsize := hans.grows.size
    have hsize' := hans'.grows.size
    omega

/-- Settles O44: within the buffer the host presents the bytes it reads there (`presentData_spec`). -/
theorem getAtOffsetPresentsBuffer : Obligations.GetAtOffsetPresentsBuffer := by
  intro i s off hi hwf
  have hreads : readsLanes i = true := by rcases hi with rfl | rfl <;> rfl
  refine ⟨fun ho => ?_, fun ho => present_buffer_beyond hreads ho⟩
  obtain ⟨data, hdata, hlength, hread⟩ := Memory.dataAt_of_wf hwf ho
  obtain ⟨a, b, n, hp, hn, hlanes, hzero⟩ := presentData_spec s data
  have hcount : data.length = min 10 (Memory.size s.buf - off) := hlength
  refine ⟨a, b, n, ?_, by omega, fun k hk => ?_, hzero⟩
  · simp [present, operandFits, hreads, hdata, hp]
  · rw [hread k (by omega), hlanes k hk]

end Sys2Proof.Machine
end

section
/-! PROOF. A get at the old end of the buffer reads back what a put appended (spec 20_memory.md R61). -/

namespace Sys2Proof.Machine

/-- A get at the old end of the buffer is presented exactly the valid lanes of the put before it (R57, R58). -/
theorem present_get_after_put {i g : Instr} {s t : State} (hg : g = .getU64 ∨ g = .getI64)
    (hi : appends i = true) (hs : s.Inv) (h : exec i s = .next t) {a : Wide} {b : Bus} {n : Count}
    (hd : s.Driven a b n) : ∃ a' b',
    present g (.buffer (Memory.size s.buf)) t =
      .ok (t.setOperands (some a') (some b') (some (commandOut i a b n).count)) ∧
    ∀ k, k < (commandOut i a b n).count.toNat → lane b' k = lane (commandOut i a b n).outBytes k := by
  obtain ⟨_, _, _, hd', hans⟩ := answersAppending_of_exec hi h
  obtain ⟨rfl, rfl, rfl⟩ := hd.unique hd'
  obtain ⟨v, hlen⟩ := isVarintLength_count_of_appends hi a b n
  have hle := hlen.le
  have hsize := hans.grows.size
  have hwf : Memory.wf t.buf = true := (exec_inv h hs.units hs.buf hs.limit).buf
  obtain ⟨a', b', n', hp, hn, hlanes, -⟩ :=
    (getAtOffsetPresentsBuffer g t (Memory.size s.buf) hg hwf).1 (by omega)
  obtain rfl : n' = (commandOut i a b n).count := BitVec.eq_of_toNat_eq (by omega)
  refine ⟨a', b', hp, fun k hk => Option.some.inj ?_⟩
  rw [← hlanes k hk, hans.grows.stored hs.buf k hk]

/-- Settles O46: the get is presented the put's lanes (`present_get_after_put`), and the decoder undoes the encoder on them. -/
theorem getSeesEarlierPut : Obligations.GetSeesEarlierPut := by
  intro s t a b n o hs hd
  refine ⟨fun h => ?_, fun h => ?_⟩ <;> obtain rfl := h.out_eq hd
  · obtain ⟨a', b', hp, hlanes⟩ := present_get_after_put (Or.inl rfl) rfl hs h.runs hd
    have hdec := varintDecoder_of_encoder_lanes (a.extractLsb' 0 64) (Nat.le_refl _) hlanes
    refine ⟨_, _, _, hp, answersOnly_of_driven ⟨rfl, rfl, rfl⟩ rfl, ?_⟩
    simp [commandOut, putOut, getOut, hdec, ← opa_low64]
  · obtain ⟨a', b', hp, hlanes⟩ := present_get_after_put (Or.inr rfl) rfl hs h.runs hd
    have hdec := varintDecoder_of_encoder_lanes (zigzagEncode (a.extractLsb' 0 64))
      (Nat.le_refl _) hlanes
    refine ⟨_, _, _, hp, answersOnly_of_driven ⟨rfl, rfl, rfl⟩ rfl, ?_⟩
    simp [commandOut, putOut, getOut, signedDecOut, hdec, zigzagDecode_zigzagEncode, ← opa_low64]

end Sys2Proof.Machine
end

section
/-! PROOF. Command words: which are legal and which reserved, what a reserved word drives, and how a placed word runs (spec 30_encoding.md R78 to R84). -/

namespace Sys2Proof.Machine

/-! ## Legal words -/

/-- Settles O8: each direction is a lemma about the table of R81. -/
theorem commandWordsRoundTrip : Obligations.CommandWordsRoundTrip :=
  ⟨decode_encode, fun _ _ => encode_of_decode⟩

/-- Settles O9: the four words are those that the encoder gives their instructions. -/
theorem tableWordsDecode : Obligations.TableWordsDecode :=
  ⟨decode_encode .putU64, decode_encode .getI64, decode_encode .zzEnc64, decode_encode .zzDec128⟩

/-- A table word reads as an instruction only by way of the command word it stands for (log entry 16). -/
theorem cmdOfNat_of_decodeTableWord {nbits w : Nat} {i : Instr}
    (h : decodeTableWord nbits w = some i) : cmdOfNat w = some (encode i) := by
  unfold decodeTableWord at h
  cases hw : cmdOfNat w with
  | none => simp [hw] at h
  | some c =>
    cases hd : decode c with
    | reserved why => simp [hw, hd] at h
    | instr j =>
      obtain rfl : j = i := by simpa [hw, hd] using h
      rw [encode_of_decode hd]

/-- Settles O7: the placed statement is at the head of the program, and its operand is raw port values. -/
theorem fetchWordRunsNext : Obligations.FetchWordRunsNext := by
  intro s nbits w i h
  have hhead : (s.withFetchWord nbits w).program =
      ⟨.command (some (encode i)) (.ports (some (s.opa.getD 0#128)) (some (s.inBytes.getD 0#80))
        (some (s.inAvail.getD 0#4))), true⟩ :: s.program := by
    rw [State.withFetchWord, State.withProgram_program, wordStatement,
      cmdOfNat_of_decodeTableWord h]
  rw [step_of_settled hhead, issue,
    issueCommand_of_presented (decode_encode i) (present_ports i _ _ _ _)]
  rfl

/-! ## Reserved words -/

/-- A varint operation is reserved at any width code but 0 (R83). -/
theorem decodeVarint_reserved_iff (i : Instr) (zw : BitVec 3) :
    (∃ why, decodeVarint i zw = .reserved why) ↔ zw.toNat ≠ 0 := by
  have hzero : zw = 0b000#3 ↔ zw.toNat = 0 := BitVec.toNat_inj.symm
  by_cases h : zw = 0b000#3 <;> simp [decodeVarint, h, ← hzero]

/-- A zig-zag operation is reserved at the width codes 0b101 to 0b111 (R80, R83). -/
theorem decodeZigzag_reserved_iff (f : ZzWidth → Instr) (zw : BitVec 3) :
    (∃ why, decodeZigzag f zw = .reserved why) ↔ 5 ≤ zw.toNat := by
  have hwidth : zwWidth zw = none ↔ 5 ≤ zw.toNat := by
    revert zw
    decide
  rw [← hwidth, decodeZigzag]
  cases zwWidth zw <;> simp

/-- The three kinds of reserved word, by the fields of the word (R83). -/
theorem decode_reserved_iff (w : CmdWord) : (∃ why, decode w = .reserved why) ↔
    (6 ≤ (opField w).toNat ∨ ((opField w).toNat ≤ 3 ∧ (zwField w).toNat ≠ 0) ∨
      (((opField w).toNat = 4 ∨ (opField w).toNat = 5) ∧ 5 ≤ (zwField w).toNat)) := by
  unfold decode
  split
  case h_7 h0 h1 h2 h3 h4 h5 =>
    have hop : 6 ≤ (opField w).toNat := by
      simp only [imp_false] at h0 h1 h2 h3 h4 h5
      omega
    exact iff_of_true ⟨_, rfl⟩ (Or.inl hop)
  all_goals
    simp only [decodeVarint_reserved_iff, decodeZigzag_reserved_iff]
    omega

/-- A reserved word drives ILLEGAL, whatever the operands (60_exceptions.md R176). -/
theorem vzCore_reserved {w : CmdWord} {why : ReservedReason} (h : decode w = .reserved why)
    (a : Wide) (b : Bus) (n : Count) : vzCore w a b n = illegalOut := by
  simp only [vzCore, h]

/-- Settles O10: the kinds by `decode_reserved_iff`, their number by a count over the 128 words. -/
theorem reservedWordsAreIllegal : Obligations.ReservedWordsAreIllegal :=
  ⟨decode_reserved_iff, by decide, fun _ _ a b n h => by rw [vzCore_reserved h a b n]; rfl⟩

/-! ## Status code 0b11, and the counts that are not reserved -/

theorem Status.code_eq_illegal_iff (x : Status) : x.code = 0b11#2 ↔ x = .illegal := by
  cases x <;> decide

/-- A legal command never drives ILLEGAL: a get drives the decoder's status, every other command OK. -/
theorem commandOut_status_ne_illegal (i : Instr) (a : Wide) (b : Bus) (n : Count) :
    (commandOut i a b n).status ≠ .illegal := by
  cases i
  case getU64 | getI64 => exact varintDecoder_status_ne_illegal b n
  all_goals exact Status.noConfusion

/-- `vz_core` drives ILLEGAL for the reserved words and for no other (R84). -/
theorem vzCore_illegal_iff (w : CmdWord) (a : Wide) (b : Bus) (n : Count) :
    (vzCore w a b n).status = .illegal ↔ ∃ why, decode w = .reserved why := by
  cases hd : decode w with
  | instr i => simpa [vzCore, hd] using commandOut_status_ne_illegal i a b n
  | reserved why => simp [vzCore, hd, illegalOut]

/-- The decoder reads no more than 10 bytes, so a count above 10 acts as 10 (R142). -/
theorem varintDecoder_above_ten {n : Count} (h : 10 < n.toNat) (b : Bus) :
    varintDecoder b n = varintDecoder b 10#4 := by
  have husable : usableCount n = usableCount 10#4 := by
    rw [usableCount_eq, Nat.min_eq_right (Nat.le_of_lt h)]
    rfl
  rw [varintDecoder, varintDecoder, decodeLanes, decodeLanes, husable]

/-- A command reads `in_avail` only through the decoder (R82). -/
theorem commandOut_of_decoder_eq {b : Bus} {n n' : Count}
    (h : varintDecoder b n = varintDecoder b n') (i : Instr) (a : Wide) :
    commandOut i a b n = commandOut i a b n' := by
  cases i
  case getU64 => exact congrArg getOut h
  case getI64 => exact congrArg (fun d => getOut (signedDecOut d)) h
  all_goals rfl

/-- Settles O12: ILLEGAL alone has code 0b11, and counts above 10 give the decoder's outputs at 10. -/
theorem illegalOnlyFromReservedWord : Obligations.IllegalOnlyFromReservedWord := by
  refine ⟨fun w a b n => ?_, fun b n => ?_, fun w a b n h => ?_⟩
  · rw [Status.code_eq_illegal_iff, vzCore_illegal_iff]
  · rw [Ne, Status.code_eq_illegal_iff]
    exact varintDecoder_status_ne_illegal b n
  · have hdec := varintDecoder_above_ten h b
    refine ⟨?_, hdec⟩
    cases hd : decode w with
    | instr i => simpa only [vzCore, hd] using commandOut_of_decoder_eq hdec i a
    | reserved why => rw [vzCore_reserved hd, vzCore_reserved hd]

end Sys2Proof.Machine
end

section
/-! PROOF. The table of varint lengths and the width limits (spec 30_encoding.md R73). -/

namespace Sys2Proof.Machine

/-- The encoder's length is the one that R72 defines. -/
theorem varintEncoder_len_eq_iff (v : Value) (len : Nat) :
    (varintEncoder v).len.toNat = len ↔ IsVarintLength v.toNat len := by
  rw [varintEncoder_len]
  exact ⟨fun h => h ▸ isVarintLength_varintBytes v, (isVarintLength_varintBytes v).unique⟩

/-- The smallest value of length `len` (R73). -/
def smallestOfLength (len : Nat) : Nat := if len = 1 then 0 else 2 ^ (7 * (len - 1))

/-- The largest u64 value of length `len` (R73). -/
def largestOfLength (len : Nat) : Nat := min (2 ^ (7 * len)) (2 ^ 64) - 1

/-- A u64 value has length `len` exactly between the smallest and the largest of that length. -/
theorem isVarintLength_iff_between {v len : Nat} (hv : v < 2 ^ 64) (hpos : 1 ≤ len)
    (hle : len ≤ 10) :
    IsVarintLength v len ↔ smallestOfLength len ≤ v ∧ v ≤ largestOfLength len := by
  have hlargest : v ≤ largestOfLength len ↔ v < 2 ^ (7 * len) := by
    have := Nat.two_pow_pos (7 * len)
    unfold largestOfLength
    omega
  have hsmallest : smallestOfLength len ≤ v ↔ len = 1 ∨ 2 ^ (7 * (len - 1)) ≤ v := by
    unfold smallestOfLength
    split <;> simp [*]
  rw [hlargest, hsmallest]
  exact ⟨fun h => ⟨h.least, h.fits⟩, fun h => ⟨hpos, hle, h.2, h.1⟩⟩

/-- A value that fits in `bound` groups has no greater length (R72). -/
theorem IsVarintLength.le_of_fits {v len bound : Nat} (h : IsVarintLength v len)
    (hbound : 1 ≤ bound) (hfits : v < 2 ^ (7 * bound)) : len ≤ bound := by
  rcases h.least with h1 | hleast
  · omega
  · have hexp : 7 * (len - 1) < 7 * bound :=
      (Nat.pow_lt_pow_iff_right (by decide)).mp (Nat.lt_of_le_of_lt hleast hfits)
    omega

/-- Settles O26: each row of R73 holds the smallest and the largest value of its length. -/
theorem lengthBoundaryTable : Obligations.LengthBoundaryTable := by
  constructor
  · intro row hrow v
    obtain ⟨hpos, hle, hsmall, hlarge⟩ : 1 ≤ row.1 ∧ row.1 ≤ 10 ∧
        row.2.1 = smallestOfLength row.1 ∧ row.2.2 = largestOfLength row.1 := by
      revert row
      decide
    rw [varintEncoder_len_eq_iff, isVarintLength_iff_between v.isLt hpos hle, hsmall, hlarge]
  · intro v
    have hlen : IsVarintLength v.toNat (varintEncoder v).len.toNat :=
      (varintEncoder_len_eq_iff v _).mp rfl
    refine ⟨fun h16 => ?_, fun h32 => ?_, hlen.le⟩
    · exact hlen.le_of_fits (bound := 3) (by decide) (by omega)
    · exact hlen.le_of_fits (bound := 5) (by decide) (by omega)

end Sys2Proof.Machine
end

section
/-! PROOF. Commands chained through `result` and `opa`: zig-zag undone by its inverse (spec 30_encoding.md R82; 40_zigzag.md R103), and the signed commands as compositions (R87). -/

namespace Sys2Proof.Machine

/-! ## One command's result as the next one's operand -/

/-- A result that was zero-extended onto `result` reads back whole from the low bits of `opa` (R82). -/
theorem extractLsb'_setWidth_wide {n : Nat} (hn : n ≤ 128) (x : BitVec n) :
    (x.setWidth 128).extractLsb' 0 n = x := by
  rw [← BitVec.setWidth_eq_extractLsb' hn, BitVec.setWidth_setWidth_of_le _ hn, BitVec.setWidth_eq]

theorem zzWidth_bits_le (w : ZzWidth) : w.bits ≤ 128 := by
  cases w <;> decide

/-- `zz_enc.N` drives the zig-zag image of the low N bits of `opa`. -/
theorem commandOut_zzEncOf (w : ZzWidth) (a : Wide) (b : Bus) (n : Count) :
    commandOut (zzEncOf w) a b n = zzOut (zigzagEncode (a.extractLsb' 0 w.bits)) := by
  cases w <;> rfl

/-- `zz_dec.N` drives the inverse image of the low N bits of `opa`. -/
theorem commandOut_zzDecOf (w : ZzWidth) (a : Wide) (b : Bus) (n : Count) :
    commandOut (zzDecOf w) a b n = zzOut (zigzagDecode (a.extractLsb' 0 w.bits)) := by
  cases w <;> rfl

theorem appends_zzEncOf (w : ZzWidth) : appends (zzEncOf w) = false := by
  cases w <;> rfl

theorem appends_zzDecOf (w : ZzWidth) : appends (zzDecOf w) = false := by
  cases w <;> rfl

/-! ## Zig-zag commands -/

/-- Zig-zag encode undoes zig-zag decode, at every width (R103). -/
theorem zigzagEncode_zigzagDecode {n : Nat} (u : BitVec n) :
    zigzagEncode (zigzagDecode u) = u := by
  apply BitVec.eq_of_getLsbD_eq
  intro i hi
  have hsign : (zigzagDecode u).msb = u.getLsbD 0 := by
    have htop : u.getLsbD (n - 1 + 1) = false := BitVec.getLsbD_of_ge _ _ (by omega)
    rw [BitVec.msb_eq_getLsbD_last, getLsbD_zigzagDecode u (n - 1) (by omega), htop]
    simp
  rw [getLsbD_zigzagEncode _ i hi, hsign]
  cases i with
  | zero => simp
  | succ i => simp [getLsbD_zigzagDecode u i (by omega)]

/-- Settles O22: the second command reads the first one's result back, and the functions are mutual inverses. -/
theorem zigzagCommandsUndoEachOther : Obligations.ZigzagCommandsUndoEachOther := by
  intro w s t a b c o hd
  have hlow : a.extractLsb' 0 w.bits = a.setWidth w.bits :=
    (BitVec.setWidth_eq_extractLsb' (zzWidth_bits_le w)).symm
  refine ⟨fun h => ?_, fun h => ?_⟩ <;> obtain rfl := h.out_eq hd
  · refine ⟨_, _, answersOnly_of_driven ⟨rfl, rfl, rfl⟩ (appends_zzDecOf w), ?_⟩
    rw [commandOut_zzDecOf, commandOut_zzEncOf, zzOut, zzOut,
      extractLsb'_setWidth_wide (zzWidth_bits_le w), zigzagDecode_zigzagEncode, hlow]
  · refine ⟨_, _, answersOnly_of_driven ⟨rfl, rfl, rfl⟩ (appends_zzEncOf w), ?_⟩
    rw [commandOut_zzEncOf, commandOut_zzDecOf, zzOut, zzOut,
      extractLsb'_setWidth_wide (zzWidth_bits_le w), zigzagEncode_zigzagDecode, hlow]

/-! ## Signed commands -/

/-- A put that answered had room for its bytes, and this is its next state (R57). -/
theorem exec_next_of_appends {i : Instr} {s t : State} {a : Wide} {b : Bus} {n : Count}
    (hd : s.Driven a b n) (hi : appends i = true) (h : exec i s = .next t) :
    fitsLimit s.bufLimit (Memory.size s.buf + (commandOut i a b n).count.toNat) = true ∧
    t = (s.drive i (commandOut i a b n)).withBuf (Memory.append s.buf
      (lanesFrom (commandOut i a b n).outBytes 0 (commandOut i a b n).count.toNat)) := by
  rw [exec_driven hd, if_pos hi] at h
  rcases s.driveAppend_cases i (commandOut i a b n) with ⟨hfit, hr⟩ | ⟨-, hr⟩ <;>
    rw [hr] at h <;> cases h
  exact ⟨hfit, rfl⟩

/-- `put_u64` of what `zz_enc.64` drives is `put_i64` (R87). -/
theorem commandOut_putU64_zzEnc64 (a : Wide) (b b' : Bus) (n n' : Count) :
    commandOut .putU64 (commandOut .zzEnc64 a b n).result b' n' = commandOut .putI64 a b n :=
  congrArg (fun v => putOut (varintEncoder v)) (extractLsb'_setWidth_wide (by decide) _)

/-- `get_i64` has the status and count of `get_u64` and, on OK, the result of `zz_dec.64` on its result (R87). -/
theorem commandOut_zzDec64_getU64 (a a' : Wide) (b : Bus) (n : Count)
    (hok : (commandOut .getU64 a b n).status = .ok) (b' : Bus) (n' : Count) :
    (commandOut .zzDec64 (commandOut .getU64 a b n).result b' n').result =
      (commandOut .getI64 a' b n).result := by
  have hdec : (varintDecoder b n).status = .ok := hok
  simp [commandOut, zzOut, getOut, signedDecOut, hdec, extractLsb'_setWidth_wide]

/-- Settles O41: the second command of each expansion reads the first one's result back (R87). -/
theorem signedCommandsAreCompositions : Obligations.SignedCommandsAreCompositions := by
  refine ⟨fun s t a b n o hd h => ?_, fun s t a b n o hd h => ?_⟩ <;>
    obtain rfl := h.out_eq hd
  · obtain ⟨hfit, rfl⟩ := exec_next_of_appends hd rfl h.runs
    have hout := commandOut_putU64_zzEnc64 a b b n n
    refine ⟨_, _, _, _, answersOnly_of_driven hd rfl,
      answersAppending_of_driven ⟨rfl, rfl, rfl⟩ rfl ?_, ?_⟩ <;> rw [hout]
    · exact hfit
    · exact ⟨rfl, rfl, fun _ _ => rfl, rfl⟩
  · exact ⟨_, _, answersOnly_of_driven hd rfl, rfl, rfl, fun hok =>
      ⟨_, _, answersOnly_of_driven ⟨rfl, rfl, rfl⟩ rfl,
        (commandOut_zzDec64_getU64 a a b n hok b n).symm⟩⟩

end Sys2Proof.Machine
end

section
/-! PROOF. The literal operand forms: which commands have them, and what the host presents (spec 30_encoding.md R86). -/

namespace Sys2Proof.Machine

/-! ## Byte sequences -/

theorem readsLanes_eq_true_iff (i : Instr) :
    readsLanes i = true ↔ i = .getU64 ∨ i = .getI64 := by
  cases i <;> simp [readsLanes]

/-- A form or a literal that R86 does not have is refused, whatever the state (log entry 8). -/
theorem present_illFormed {i : Instr} {operand : Operand} (h : operandFits i operand = false)
    (s : State) : present i operand s = .error .illFormedStatement := by
  simp [present, h]

/-- Settles O48: a get has the byte forms (`presentData_spec`) and no number; every other command has no byte form. -/
theorem literalBytesArePresented : Obligations.LiteralBytesArePresented := by
  refine ⟨fun i s data hi => ?_, fun i s hu hi => ?_, fun i s v hi => ?_⟩
  · have hp : present i (.bytes data) s = .ok (s.presentData data) :=
      if_pos ((readsLanes_eq_true_iff i).mpr hi)
    rw [hp]
    obtain ⟨a, b, n, hdata, hn, hlanes, hzero⟩ := presentData_spec s data
    exact ⟨a, b, n, by rw [hdata], hn, hlanes, hzero⟩
  · have hreads : readsLanes i = false :=
      Bool.eq_false_iff.mpr fun h => ((readsLanes_eq_true_iff i).mp h).elim hu hi
    exact ⟨fun data => present_illFormed (operand := .bytes data) hreads s,
      fun off => present_illFormed (operand := .buffer off) hreads s⟩
  · rcases hi with rfl | rfl <;> exact present_illFormed rfl s

/-! ## Numbers -/

theorem operandFits_literal {i : Instr} {lo hi : Int} (h : literalRange i = some (lo, hi))
    (v : Int) : operandFits i (.literal v) = decide (lo ≤ v ∧ v ≤ hi) := by
  simp only [operandFits, h]

/-- A literal in its command's range is driven as its pattern on `opa`, and 0 on the other operand ports (log entry 6). -/
theorem present_literal {i : Instr} {lo hi v : Int} (h : literalRange i = some (lo, hi))
    (hv : lo ≤ v ∧ v ≤ hi) (s : State) : present i (.literal v) s =
      .ok (s.setOperands (some (literalPattern i v)) (some 0#80) (some 0#4)) :=
  if_pos (by simpa [operandFits_literal h] using hv)

theorem present_literal_outside {i : Instr} {lo hi v : Int} (h : literalRange i = some (lo, hi))
    (hv : ¬ (lo ≤ v ∧ v ≤ hi)) (s : State) :
    present i (.literal v) s = .error .illFormedStatement :=
  present_illFormed (by simpa [operandFits_literal h] using hv) s

/-- The low bits of `opa` carry the literal's pattern at the operand's width (R82). -/
theorem setWidth_literalPattern {i : Instr} {n : Nat} (hwidth : operandWidth i = n) (hn : n ≤ 128)
    (v : Int) : (literalPattern i v).setWidth n = BitVec.ofInt n v := by
  subst hwidth
  rw [literalPattern, BitVec.setWidth_setWidth_of_le _ hn, BitVec.setWidth_eq]

/-- A command whose operand is an unsigned number of `n` bits is presented exactly those literals, by value. -/
theorem present_unsigned_literal {i : Instr} {n : Nat}
    (hrange : literalRange i = some (0, 2 ^ n - 1))
    (hwidth : operandWidth i = n) (hn : n ≤ 128) (v : Int) (s : State) :
    (0 ≤ v ∧ v < 2 ^ n → ∃ a b c,
      present i (.literal v) s = .ok (s.setOperands (some a) (some b) (some c)) ∧
      ((a.setWidth n).toNat : Int) = v) ∧
    (¬ (0 ≤ v ∧ v < 2 ^ n) → present i (.literal v) s = .error .illFormedStatement) := by
  have hmem : 0 ≤ v ∧ v ≤ 2 ^ n - 1 ↔ 0 ≤ v ∧ v < 2 ^ n := by omega
  refine ⟨fun hv => ⟨_, _, _, present_literal hrange (hmem.mpr hv) s, ?_⟩,
    fun hv => present_literal_outside hrange (hmem.not.mpr hv) s⟩
  rw [setWidth_literalPattern hwidth hn, BitVec.toNat_ofInt]
  push_cast
  rw [Int.emod_eq_of_lt hv.1 hv.2, Int.toNat_of_nonneg hv.1]

/-- A command whose operand is a two's complement number of `n + 1` bits is presented exactly those literals, by value. -/
theorem present_signed_literal {i : Instr} {n : Nat}
    (hrange : literalRange i = some (-2 ^ n, 2 ^ n - 1))
    (hwidth : operandWidth i = n + 1) (hn : n + 1 ≤ 128) (v : Int) (s : State) :
    (-2 ^ n ≤ v ∧ v < 2 ^ n → ∃ a b c,
      present i (.literal v) s = .ok (s.setOperands (some a) (some b) (some c)) ∧
      (a.setWidth (n + 1)).toInt = v) ∧
    (¬ (-2 ^ n ≤ v ∧ v < 2 ^ n) → present i (.literal v) s = .error .illFormedStatement) := by
  have hmem : -2 ^ n ≤ v ∧ v ≤ 2 ^ n - 1 ↔ -2 ^ n ≤ v ∧ v < 2 ^ n := by omega
  refine ⟨fun hv => ⟨_, _, _, present_literal hrange (hmem.mpr hv) s, ?_⟩,
    fun hv => present_literal_outside hrange (hmem.not.mpr hv) s⟩
  rw [setWidth_literalPattern hwidth hn]
  exact BitVec.toInt_ofInt_eq_self (Nat.succ_pos n) hv.1 hv.2

/-- Settles O45: each listed command has the range and the width of its operand's type. -/
theorem literalIsPresented : Obligations.LiteralIsPresented := by
  constructor
  · intro c hc v s
    obtain ⟨hrange, hwidth, hn⟩ : literalRange c.1 = some (0, 2 ^ c.2 - 1) ∧
        operandWidth c.1 = c.2 ∧ c.2 ≤ 128 := by
      revert c
      decide
    exact present_unsigned_literal hrange hwidth hn v s
  · intro c hc v s
    obtain ⟨hrange, hwidth, hn⟩ : literalRange c.1 = some (-2 ^ c.2, 2 ^ c.2 - 1) ∧
        operandWidth c.1 = c.2 + 1 ∧ c.2 + 1 ≤ 128 := by
      revert c
      decide
    exact present_signed_literal hrange hwidth hn v s

end Sys2Proof.Machine
end

section
/-! PROOF. The zig-zag commands and functions: what they complete with, the extremes, and that neither function is its own inverse (spec 40_zigzag.md R101 to R103, R114). -/

namespace Sys2Proof.Machine

/-! ## The commands -/

/-- The operand that a zig-zag command takes from `opa`, as the statements write it (R82). -/
theorem opa_lowBits (w : ZzWidth) (a : Wide) : a.extractLsb' 0 w.bits = a.setWidth w.bits :=
  (BitVec.setWidth_eq_extractLsb' (zzWidth_bits_le w)).symm

/-- Zero-extension onto `result` keeps the value of an N-bit pattern (R82, R114). -/
theorem toNat_zzOut_result {w : ZzWidth} (r : BitVec w.bits) :
    (zzOut r).result.toNat = r.toNat :=
  BitVec.toNat_setWidth_of_le (zzWidth_bits_le w)

theorem zzOut_result_setWidth {w : ZzWidth} (r : BitVec w.bits) :
    (zzOut r).result.setWidth w.bits = r :=
  (opa_lowBits w _).symm.trans (extractLsb'_setWidth_wide (zzWidth_bits_le w) r)

/-- `zz_enc.N` completes with the integer function of R101. -/
theorem zigzagEncodes_zzEncOf (w : ZzWidth) : ZigzagEncodes (zzEncOf w) w.bits := by
  intro s a b c hd
  refine ⟨_, _, answersOnly_of_driven hd (appends_zzEncOf w), ?_⟩
  rw [commandOut_zzEncOf, opa_lowBits, toNat_zzOut_result]
  exact ⟨rfl, toNat_zigzagEncode (zzWidth_bits_pos w) _⟩

/-- `zz_dec.N` completes with the integer function of R102. -/
theorem zigzagDecodes_zzDecOf (w : ZzWidth) : ZigzagDecodes (zzDecOf w) w.bits := by
  intro s a b c hd
  refine ⟨_, _, answersOnly_of_driven hd (appends_zzDecOf w), ?_⟩
  rw [commandOut_zzDecOf, opa_lowBits, toNat_zzOut_result, zzOut_result_setWidth]
  exact ⟨rfl, BitVec.isLt _, toInt_zigzagDecode (zzWidth_bits_pos w) _⟩

/-! ## The functions -/

/-- The image of R101 is even exactly for the numbers at or above 0. -/
theorem zigzagInt_even_iff (x : Int) : zigzagInt x % 2 = 0 ↔ 0 ≤ x := by
  unfold zigzagInt
  split <;> omega

/-- MAX_N encodes to the greatest even pattern (R101). -/
theorem toNat_zigzagEncode_intMax {n : Nat} (hn : 0 < n) :
    (zigzagEncode (BitVec.intMax n)).toNat = 2 ^ n - 2 := by
  have hint := toNat_zigzagEncode hn (BitVec.intMax n)
  have hcast : (2 : Int) ^ (n - 1) = (2 ^ (n - 1) : Nat) := (Nat.cast_pow 2 (n - 1)).symm
  have hdouble : 2 ^ (n - 1) * 2 = 2 ^ n := Nat.two_pow_pred_mul_two hn
  have hpos : 0 < 2 ^ (n - 1) := Nat.two_pow_pos _
  rw [BitVec.toInt_intMax, hcast, zigzagInt, if_pos (by omega)] at hint
  omega

/-- MIN_N is the sign bit alone, which the shift drops and the sign pattern inverts: all ones (R100, R101). -/
theorem zigzagEncode_intMin {n : Nat} (hn : 0 < n) :
    zigzagEncode (BitVec.intMin n) = BitVec.allOnes n := by
  apply BitVec.eq_of_getLsbD_eq
  intro i hi
  have hshift : (decide (1 ≤ i) && (BitVec.intMin n).getLsbD (i - 1)) = false := by
    rw [BitVec.getLsbD_intMin, ← Bool.decide_and]
    exact decide_eq_false (by omega)
  rw [getLsbD_zigzagEncode _ i hi, hshift, BitVec.msb_intMin]
  simp [hn, hi]

/-- One pattern on which the two functions differ: encode gives 2, decode all ones. -/
theorem zigzagEncode_one_ne_zigzagDecode_one (w : ZzWidth) :
    zigzagEncode (1 : BitVec w.bits) ≠ zigzagDecode 1 := by
  cases w <;> decide

/-! ## The statements -/

/-- Settles O19: the commands by `zigzagEncodes_zzEncOf`, and the parity and the extremes by the integer function. -/
theorem zigzagEncodeCompletes : Obligations.ZigzagEncodeCompletes := by
  refine ⟨⟨zigzagEncodes_zzEncOf .w8, zigzagEncodes_zzEncOf .w16, zigzagEncodes_zzEncOf .w32,
    zigzagEncodes_zzEncOf .w64, zigzagEncodes_zzEncOf .w128⟩, fun w x => ?parity, fun w =>
    ⟨toNat_zigzagEncode_intMax (zzWidth_bits_pos w), zigzagEncode_intMin (zzWidth_bits_pos w)⟩⟩
  case parity =>
    rw [← zigzagInt_even_iff, ← toNat_zigzagEncode (zzWidth_bits_pos w)]
    omega

/-- Settles O20: `zigzagDecodes_zzDecOf` at the five widths. -/
theorem zigzagDecodeCompletes : Obligations.ZigzagDecodeCompletes :=
  ⟨zigzagDecodes_zzDecOf .w8, zigzagDecodes_zzDecOf .w16, zigzagDecodes_zzDecOf .w32,
    zigzagDecodes_zzDecOf .w64, zigzagDecodes_zzDecOf .w128⟩

/-- Settles O21: a function that were its own inverse would equal the other one, and they differ at 1. -/
theorem zigzagMutualInverses : Obligations.ZigzagMutualInverses := by
  refine fun w => ⟨zigzagDecode_zigzagEncode, zigzagEncode_zigzagDecode, ⟨1, fun h => ?encode⟩,
    ⟨1, fun h => ?decode⟩⟩ <;> apply zigzagEncode_one_ne_zigzagDecode_one w
  case encode =>
    calc zigzagEncode 1 = zigzagDecode (zigzagEncode (zigzagEncode 1)) :=
          (zigzagDecode_zigzagEncode _).symm
      _ = zigzagDecode 1 := by rw [h]
  case decode =>
    calc zigzagEncode 1 = zigzagEncode (zigzagDecode (zigzagDecode 1)) := by rw [h]
      _ = zigzagDecode 1 := zigzagEncode_zigzagDecode _

end Sys2Proof.Machine
end

section
/-! PROOF. Encode and decode together: a get of the lanes that a put drives gives the operand back (spec 41_varint.md R143, R148). -/

namespace Sys2Proof.Machine

/-- A successful decode is driven by `get_u64` as it is, with 0 above the value (R82, R149). -/
theorem commandOut_getU64_of_ok {b : Bus} {n len : Count} {v : Value}
    (h : varintDecoder b n = ⟨.ok, v, len⟩) (a : Wide) :
    commandOut .getU64 a b n = ⟨.ok, v.setWidth 128, 0#80, len⟩ :=
  congrArg getOut h

/-- A successful decode is driven by `get_i64` through the zig-zag decoder (R147). -/
theorem commandOut_getI64_of_ok {b : Bus} {n len : Count} {v : Value}
    (h : varintDecoder b n = ⟨.ok, v, len⟩) (a : Wide) :
    commandOut .getI64 a b n = ⟨.ok, (zigzagDecode v).setWidth 128, 0#80, len⟩ :=
  congrArg (fun d => getOut (signedDecOut d)) h

/-- Settles O37: the decoder undoes the encoder on its valid lanes (`varintDecoder_of_encoder_lanes`, over `encodeLoop_spec`). -/
theorem unsignedRoundTrip : Obligations.UnsignedRoundTrip := by
  intro s t s' a a' b b' n n' o hd h hd' havail hlanes
  obtain rfl := h.out_eq hd
  have hdec := varintDecoder_of_encoder_lanes (a.extractLsb' 0 64) havail hlanes
  refine ⟨_, _, answersOnly_of_driven hd' rfl, ?_⟩
  rw [commandOut_getU64_of_ok hdec]
  exact ⟨rfl, by rw [opa_low64], rfl, isVarintLength_count_putU64 a b n⟩

/-- Settles O38: the decoder gives back the zig-zag image, and zig-zag decode undoes it. -/
theorem signedRoundTrip : Obligations.SignedRoundTrip := by
  intro s t s' a a' b b' n n' o hd h hd' havail hlanes
  obtain rfl := h.out_eq hd
  have hdec := varintDecoder_of_encoder_lanes (zigzagEncode (a.extractLsb' 0 64)) havail hlanes
  refine ⟨_, _, answersOnly_of_driven hd' rfl, ?_⟩
  rw [commandOut_getI64_of_ok hdec, zigzagDecode_zigzagEncode]
  exact ⟨rfl, by rw [opa_low64], rfl, isVarintLength_count_putI64 a b n⟩

end Sys2Proof.Machine
end

section
/-! PROOF. The varint encoder and the puts: what they complete with, and what an encoding looks like (spec 41_varint.md R130 to R133, R146). -/

namespace Sys2Proof.Machine

/-! ## The puts -/

/-- The value of `put_i64` is the 64-bit zig-zag image of its operand (R101, R146). -/
theorem putValueI64_eq (a : Wide) : putValueI64 a = (zigzagEncode (a.extractLsb' 0 64)).toNat := by
  rw [putValueI64, opa_low64, ← toNat_zigzagEncode (by decide), Int.toNat_natCast]

/-- A command that appends, and drives what the encoder gives for `v opa`, puts the varint of `v opa`. -/
theorem putsVarint_of_encoder {i : Instr} (hi : appends i = true) (v : Wide → Value)
    (hout : ∀ a b n, commandOut i a b n = putOut (varintEncoder (v a))) :
    PutsVarint i (fun a => (v a).toNat) := by
  intro s a b n len hd hlen hroom
  obtain rfl := (varintEncoder_len_eq_iff (v a) len).mpr hlen
  have hans := answersAppending_of_driven hd hi (by rw [hout]; exact hroom)
  rw [hout] at hans
  refine ⟨_, _, hans, rfl, rfl, ?_⟩
  rw [varintEncoder_len]
  exact varintEncoder_holds (v a)

/-- Settles O23: the value is the low half of `opa`. -/
theorem putU64Completes : Obligations.PutU64Completes :=
  putsVarint_of_encoder rfl (fun a => a.setWidth 64) fun a _ _ => by rw [← opa_low64]; rfl

/-- Settles O24: the value is the zig-zag image of the low half of `opa`. -/
theorem putI64Completes : Obligations.PutI64Completes := by
  have hvalue : putValueI64 = fun a => (zigzagEncode (a.extractLsb' 0 64)).toNat :=
    funext putValueI64_eq
  rw [Obligations.PutI64Completes, hvalue]
  exact putsVarint_of_encoder rfl (fun a => zigzagEncode (a.extractLsb' 0 64)) fun _ _ _ => rfl

/-! ## The encoding -/

/-- The encoder's length is L(v) (R131). -/
theorem isVarintLength_varintEncoder_len (v : Value) :
    IsVarintLength v.toNat (varintEncoder v).len.toNat :=
  (varintEncoder_len_eq_iff v _).mp rfl

/-- Settles O25: L(v) is unique. -/
theorem encoderLengthIsL : Obligations.EncoderLengthIsL := by
  intro v
  have hlen := isVarintLength_varintEncoder_len v
  exact ⟨hlen, hlen.pos, hlen.le, fun len h => h.unique hlen⟩

/-- The encoder's lanes hold the encoding of its value, at its length. -/
theorem varintEncoder_holds_len (v : Value) :
    HoldsEncoding (varintEncoder v).bytes v.toNat (varintEncoder v).len.toNat := by
  rw [varintEncoder_len]
  exact varintEncoder_holds v

/-- The last byte of an encoding is the value's top group: what is above it is 0 (R71, R72). -/
theorem toNat_last_of_holds {bus : Bus} {v len : Nat} (h : HoldsEncoding bus v len)
    (hlen : IsVarintLength v len) :
    (lane bus (len - 1)).toNat = v / 2 ^ (7 * (len - 1)) := by
  have hpos := hlen.pos
  have htop : v / 2 ^ (7 * (len - 1)) < 128 := by
    have hpow : 2 ^ (7 * len) = 2 ^ (7 * (len - 1)) * 128 := by
      rw [show 7 * len = 7 * (len - 1) + 7 by omega, Nat.pow_add]
    exact Nat.div_lt_of_lt_mul (hpow ▸ hlen.fits)
  rw [h _ (by omega), encodedByte, if_neg (by omega), Nat.mod_eq_of_lt htop, Nat.add_zero]

/-- The top group is 0 for the value 0 only, since L(v) is the least length (R133). -/
theorem IsVarintLength.eq_zero_of_top {v len : Nat} (h : IsVarintLength v len)
    (htop : v / 2 ^ (7 * (len - 1)) = 0) : v = 0 := by
  have hlt := Nat.lt_of_div_eq_zero (Nat.two_pow_pos _) htop
  rcases h.least with rfl | hleast
  · simpa using hlt
  · omega

/-- A u64 value of length 10 has bit 63 and nothing above it in its top group (R133). -/
theorem IsVarintLength.top_eq_one {v : Nat} (h : IsVarintLength v 10) (hv : v < 2 ^ 64) :
    v / 2 ^ (7 * (10 - 1)) = 1 := by
  have hleast : 2 ^ (7 * (10 - 1)) ≤ v := h.least.resolve_left (by decide)
  omega

/-- The encoder is injective on its valid lanes, since the decoder undoes it there (R133, R143). -/
theorem varintEncoder_injective {v w : Value} (hlen : (varintEncoder v).len = (varintEncoder w).len)
    (hlanes : ∀ k, k < (varintEncoder v).len.toNat →
      lane (varintEncoder v).bytes k = lane (varintEncoder w).bytes k) : v = w := by
  have hv := varintDecoder_of_encoder_lanes v (Nat.le_refl _) (fun _ _ => rfl)
  have hw := varintDecoder_of_encoder_lanes w (Nat.le_of_eq (congrArg _ hlen.symm))
    (hlen ▸ hlanes)
  exact congrArg DecOut.value (hv.symm.trans hw)

/-- Settles O27: the shape by the lanes that `varintEncoder_holds` gives, the last byte by its top group, and the decoder as a left inverse. -/
theorem encodingIsWellFormedAndInjective : Obligations.EncodingIsWellFormedAndInjective := by
  refine ⟨?_, fun v w => varintEncoder_injective⟩
  rintro v len rfl
  have hlen := isVarintLength_varintEncoder_len v
  have hholds := varintEncoder_holds_len v
  have hlast := toNat_last_of_holds hholds hlen
  refine ⟨hlen, firstTerminal_of_holds hholds hlen.pos, fun hzero => ?_, fun hten => ?_⟩
  · rw [hzero] at hlast
    exact BitVec.eq_of_toNat_eq (hlen.eq_zero_of_top hlast.symm)
  · rw [hten] at hlen hlast
    exact BitVec.eq_of_toNat_eq (hlast.trans (hlen.top_eq_one v.isLt))

end Sys2Proof.Machine
end

section
/-! PROOF. The varint decoder: the value that bytes denote, what the decoder drives in each case, and the lanes it does not read (spec 41_varint.md R135 to R140). -/

namespace Sys2Proof.Machine

/-! ## Bytes and the value they denote -/

/-- A terminal byte below `len` and bytes below `len` that are all continued exclude each other. -/
theorem AllContinued.not_terminal {bus : Bus} {len k : Nat} (h : AllContinued bus len)
    (hk : k < len) : continuation (lane bus k) ≠ false := by
  simp [h k hk]

/-- Only the lanes up to a terminal byte make it the first one. -/
theorem FirstTerminal.congr {bus bus' : Bus} {t : Nat} (h : FirstTerminal bus t)
    (hlanes : ∀ k, k < t + 1 → lane bus k = lane bus' k) : FirstTerminal bus' t where
  before k hk := by rw [← hlanes k (by omega), h.before k hk]
  terminal := by rw [← hlanes t (by omega), h.terminal]

/-- Equal payloads denote equal values (R71). -/
theorem denoted_congr {bus bus' : Bus} {len : Nat}
    (h : ∀ k, k < len → payload (lane bus k) = payload (lane bus' k)) :
    denoted bus len = denoted bus' len := by
  induction len with
  | zero => rfl
  | succ len ih =>
    rw [denoted, denoted, ih fun k hk => h k (by omega), h len (by omega)]

/-- Bytes whose payloads are the groups of a value denote the value, whatever their continuation bits (R71). -/
theorem denoted_of_groups {bus : Bus} {v : Value} {len : Nat} (hlen : IsVarintLength v.toNat len)
    (h : ∀ k, k < len → (payload (lane bus k)).toNat = v.toNat / 2 ^ (7 * k) % 128) :
    denoted bus len = v := by
  obtain rfl := (varintEncoder_len_eq_iff v len).mpr hlen
  have hholds := varintEncoder_holds_len v
  calc denoted bus _ = denoted (varintEncoder v).bytes _ := denoted_congr fun k hk =>
        BitVec.eq_of_toNat_eq ((h k hk).trans (toNat_payload_of_holds hholds hk).symm)
    _ = v := denoted_of_holds hholds hlen.fits

/-- Zero payloads above `len` add nothing to the value (R145). -/
theorem denoted_of_zero_above {bus : Bus} {len long : Nat} (hle : len ≤ long)
    (hzero : ∀ k, len ≤ k → k < long → payload (lane bus k) = 0#7) :
    denoted bus long = denoted bus len := by
  induction long, hle using Nat.le_induction with
  | base => rfl
  | succ long hle ih =>
    rw [denoted, ih fun k hk hlt => hzero k hk (by omega), hzero long hle (by omega)]
    simp

/-- Bit 63 of a value of ten bytes is bit 0 of the tenth (R140). -/
theorem getLsbD_denoted_ten (bus : Bus) :
    (denoted bus 10).getLsbD 63 = (lane bus 9).getLsbD 0 := by
  have hpayload : (payload (lane bus 9)).getLsbD 0 = (lane bus 9).getLsbD 0 := by simp [payload]
  rw [getLsbD_denoted bus 10 63 (by decide)]
  exact hpayload

/-- Of the tenth byte only bit 0 is shifted to a place within 64 bits (R140). -/
theorem denoted_ten_congr {bus bus' : Bus} (hlanes : ∀ k, k < 9 → lane bus k = lane bus' k)
    (hbit : (lane bus 9).getLsbD 0 = (lane bus' 9).getLsbD 0) :
    denoted bus 10 = denoted bus' 10 := by
  apply BitVec.eq_of_getLsbD_eq
  intro j hj
  by_cases hlow : j / 7 < 9
  · rw [getLsbD_denoted _ _ _ hj, getLsbD_denoted _ _ _ hj, hlanes _ hlow]
  · obtain rfl : j = 63 := by omega
    rw [getLsbD_denoted_ten, getLsbD_denoted_ten, hbit]

/-! ## What the decoder drives -/

/-- The 4-bit count ports hold every length of a varint (R7). -/
theorem toNat_count {len : Nat} (h : len ≤ 10) : (BitVec.ofNat 4 len).toNat = len :=
  (BitVec.toNat_ofNat len 4).trans (Nat.mod_eq_of_lt (by omega))

/-- A first terminal byte among those presented: OK, the value, the count (R136). -/
theorem varintDecoder_of_firstTerminal {bus : Bus} {avail : Count} {t : Nat}
    (ht : t < min avail.toNat 10) (h : FirstTerminal bus t) :
    varintDecoder bus avail = ⟨.ok, denoted bus (t + 1), BitVec.ofNat 4 (t + 1)⟩ :=
  congrArg decOutOf (decodeLanes_terminal bus avail t ht h)

/-- Ten bytes presented, all continued: Overflow(10) (R137). -/
theorem varintDecoder_of_tenContinued {bus : Bus} {avail : Count} (havail : min avail.toNat 10 = 10)
    (h : AllContinued bus 10) : varintDecoder bus avail = ⟨.overflow, 0#64, 10#4⟩ := by
  have husable : usableCount avail = 10 := havail
  rw [varintDecoder, decodeLanes_continued bus avail (husable ▸ h), if_pos husable]
  rfl

/-- Fewer than ten bytes presented, all continued: ShortOfData of all of them (R138). -/
theorem varintDecoder_of_fewContinued {bus : Bus} {avail : Count} (havail : min avail.toNat 10 < 10)
    (h : AllContinued bus (min avail.toNat 10)) :
    varintDecoder bus avail = ⟨.shortOfData, 0#64, avail⟩ := by
  have husable : usableCount avail = avail.toNat := by
    rw [usableCount_eq]
    omega
  rw [varintDecoder, decodeLanes_continued bus avail h, husable, if_neg (by omega), decOutOf,
    BitVec.ofNat_toNat, BitVec.setWidth_eq]

/-- All a decoder can drive, each with what is then so of its input (R136 to R138). -/
theorem varintDecoder_cases (bus : Bus) (avail : Count) :
    (∃ t, t < min avail.toNat 10 ∧ FirstTerminal bus t ∧ (varintDecoder bus avail).status = .ok) ∨
    (AllContinued bus (min avail.toNat 10) ∧ min avail.toNat 10 = 10 ∧
      varintDecoder bus avail = ⟨.overflow, 0#64, 10#4⟩) ∨
    (AllContinued bus (min avail.toNat 10) ∧ min avail.toNat 10 < 10 ∧
      varintDecoder bus avail = ⟨.shortOfData, 0#64, avail⟩) := by
  rcases firstTerminal_or_allContinued bus (min avail.toNat 10) with ⟨t, ht, hft⟩ | hall
  · exact Or.inl ⟨t, ht, hft, by rw [varintDecoder_of_firstTerminal ht hft]⟩
  · rcases Nat.lt_or_eq_of_le (Nat.min_le_right avail.toNat 10) with hlt | heq
    · exact Or.inr (Or.inr ⟨hall, hlt, varintDecoder_of_fewContinued hlt hall⟩)
    · exact Or.inr (Or.inl ⟨hall, heq, varintDecoder_of_tenContinued heq (heq ▸ hall)⟩)

/-- A decode succeeds exactly when a byte presented is terminal (R136). -/
theorem varintDecoder_ok_iff (bus : Bus) (avail : Count) :
    (varintDecoder bus avail).status = .ok ↔
      ∃ k, k < min avail.toNat 10 ∧ continuation (lane bus k) = false := by
  rcases varintDecoder_cases bus avail with ⟨t, ht, hft, hok⟩ | ⟨hall, -, hout⟩ | ⟨hall, -, hout⟩
  · exact iff_of_true hok ⟨t, ht, hft.terminal⟩
  all_goals exact iff_of_false (by simp [hout]) fun ⟨k, hk, hterm⟩ => hall.not_terminal hk hterm

/-- A decode overflows exactly when it is presented ten bytes, all continued (R137). -/
theorem varintDecoder_overflow_iff (bus : Bus) (avail : Count) :
    (varintDecoder bus avail).status = .overflow ↔
      min avail.toNat 10 = 10 ∧ AllContinued bus 10 := by
  refine ⟨fun h => ?_, fun ⟨havail, hall⟩ => by rw [varintDecoder_of_tenContinued havail hall]⟩
  rcases varintDecoder_cases bus avail with ⟨t, -, -, hok⟩ | ⟨hall, heq, -⟩ | ⟨-, -, hout⟩
  · simp [hok] at h
  · exact ⟨heq, heq ▸ hall⟩
  · simp [hout] at h

/-- A decode is short exactly when it is presented fewer than ten bytes, all continued (R138). -/
theorem varintDecoder_short_iff (bus : Bus) (avail : Count) :
    (varintDecoder bus avail).status = .shortOfData ↔
      min avail.toNat 10 < 10 ∧ AllContinued bus (min avail.toNat 10) := by
  refine ⟨fun h => ?_, fun ⟨havail, hall⟩ => by rw [varintDecoder_of_fewContinued havail hall]⟩
  rcases varintDecoder_cases bus avail with ⟨t, -, -, hok⟩ | ⟨-, -, hout⟩ | ⟨hall, hlt, -⟩
  · simp [hok] at h
  · simp [hout] at h
  · exact ⟨hlt, hall⟩

/-- The loop reads only the lanes of the bytes it has still to read (R135). -/
theorem decodeLoop_congr {bus bus' : Bus} {left read : Nat} (acc : Value)
    (hlanes : ∀ k, k < read + left → lane bus k = lane bus' k) :
    decodeLoop bus left read acc = decodeLoop bus' left read acc := by
  induction left generalizing read acc with
  | zero => rfl
  | succ left ih =>
    rw [decodeLoop, decodeLoop, hlanes read (by omega), ih _ fun k hk => hlanes k (by omega)]

/-- The decoder reads no lane at or above `min(avail, 10)` (R139). -/
theorem varintDecoder_congr {bus bus' : Bus} {avail : Count}
    (hlanes : ∀ k, k < min avail.toNat 10 → lane bus k = lane bus' k) :
    varintDecoder bus avail = varintDecoder bus' avail :=
  congrArg decOutOf (decodeLoop_congr 0#64 (by simpa [usableCount_eq] using hlanes))

/-- A decode that succeeds reads no lane at or above its count (R139). -/
theorem varintDecoder_congr_of_ok {bus bus' : Bus} {avail : Count}
    (hok : (varintDecoder bus avail).status = .ok)
    (hlanes : ∀ k, k < (varintDecoder bus avail).count.toNat → lane bus k = lane bus' k) :
    varintDecoder bus avail = varintDecoder bus' avail := by
  rcases varintDecoder_cases bus avail with ⟨t, ht, hft, -⟩ | ⟨-, -, hout⟩ | ⟨-, -, hout⟩
  · have hout := varintDecoder_of_firstTerminal ht hft
    rw [hout, toNat_count (by omega)] at hlanes
    rw [hout, varintDecoder_of_firstTerminal ht (hft.congr hlanes),
      denoted_congr fun k hk => congrArg payload (hlanes k hk)]
  all_goals simp [hout] at hok

end Sys2Proof.Machine
end

section
/-! PROOF. The gets: success, overflow and short data, what the unread lanes and the tenth byte can do, truncated and over-long encodings (spec 41_varint.md R136 to R149). -/

namespace Sys2Proof.Machine

/-! ## What the gets drive -/

theorem appends_get {i : Instr} (hi : i = .getU64 ∨ i = .getI64) : appends i = false := by
  rcases hi with rfl | rfl <;> rfl

/-- A get drives the decoder's status and count (R82, R147, R149). -/
theorem commandOut_get_status_count {i : Instr} (hi : i = .getU64 ∨ i = .getI64) (a : Wide) (b : Bus)
    (n : Count) : (commandOut i a b n).status = (varintDecoder b n).status ∧
      (commandOut i a b n).count = (varintDecoder b n).count := by
  rcases hi with rfl | rfl <;> exact ⟨rfl, rfl⟩

/-- A get reads its inputs through the decoder only (R82). -/
theorem commandOut_get_congr {i : Instr} (hi : i = .getU64 ∨ i = .getI64) {b b' : Bus}
    {n n' : Count} (h : varintDecoder b n = varintDecoder b' n') (a a' : Wide) :
    commandOut i a b n = commandOut i a' b' n' := by
  rcases hi with rfl | rfl
  · exact congrArg getOut h
  · exact congrArg (fun d => getOut (signedDecOut d)) h

/-- Settles O29: `varintDecoder_ok_iff`, and the outputs at the first terminal byte. -/
theorem getU64SucceedsAtFirstTerminal : Obligations.GetU64SucceedsAtFirstTerminal := by
  intro s a b n hd
  refine ⟨_, _, answersOnly_of_driven hd rfl, varintDecoder_ok_iff b n, fun k hk hft => ?_⟩
  rw [commandOut_getU64_of_ok (varintDecoder_of_firstTerminal hk hft)]
  exact ⟨toNat_count (by omega), rfl⟩

/-- Settles O30: both commands drive the decoder's status and count, and the value goes through the zig-zag decoder, whose integer function is `toInt_zigzagDecode`. -/
theorem getI64DecodesGetU64 : Obligations.GetI64DecodesGetU64 := by
  intro s a b n hd
  refine ⟨_, _, _, _, answersOnly_of_driven hd rfl, (answersOnly_of_driven hd rfl).toAnswers,
    rfl, rfl, fun hok => ?_⟩
  obtain ⟨v, len, hdec⟩ : ∃ v len, varintDecoder b n = ⟨.ok, v, len⟩ := ⟨_, _, by rw [← hok]; rfl⟩
  rw [commandOut_getI64_of_ok hdec, commandOut_getU64_of_ok hdec,
    BitVec.toNat_setWidth_of_le (by decide), BitVec.toNat_setWidth_of_le (by decide),
    BitVec.setWidth_setWidth_of_le _ (by decide), BitVec.setWidth_eq]
  exact ⟨BitVec.isLt _, toInt_zigzagDecode (by decide) v⟩

/-- Settles O31: the gets drive the decoder's status and count, and `varintDecoder_overflow_iff` says when it overflows. -/
theorem decodeOverflowsExactlyWhen : Obligations.DecodeOverflowsExactlyWhen := by
  intro i s a b n hi hd
  obtain ⟨hstatus, hcount⟩ := commandOut_get_status_count hi a b n
  refine ⟨_, _, answersOnly_of_driven hd (appends_get hi), ?_⟩
  rw [hstatus, hcount, varintDecoder_overflow_iff]
  refine ⟨Iff.rfl, fun ⟨havail, hall⟩ => ?_⟩
  rw [varintDecoder_of_tenContinued havail hall]
  rfl

/-- Settles O32: the gets drive the decoder's status and count, and `varintDecoder_short_iff` says when it is short. -/
theorem decodeShortExactlyWhen : Obligations.DecodeShortExactlyWhen := by
  intro i s a b n hi hd
  obtain ⟨hstatus, hcount⟩ := commandOut_get_status_count hi a b n
  refine ⟨_, _, answersOnly_of_driven hd (appends_get hi), ?_⟩
  rw [hstatus, hcount, varintDecoder_short_iff]
  refine ⟨Iff.rfl, fun ⟨havail, hall⟩ => ?_⟩
  rw [varintDecoder_of_fewContinued havail hall]
  change n.toNat = min n.toNat 10
  omega

/-- Settles O33: the decoder's outputs are those at a count of 10 (`varintDecoder_above_ten`). -/
theorem countsAboveTenActAsTen : Obligations.CountsAboveTenActAsTen := by
  intro i s t a b n o hi hd hn h
  obtain rfl := h.out_eq hd
  rw [commandOut_of_decoder_eq (varintDecoder_above_ten hn b) i a]
  exact ⟨_, answersOnly_of_driven ⟨rfl, rfl, rfl⟩ (appends_get hi)⟩

/-- A byte sequence is presented to the commands that read lanes, and to no other (R86). -/
theorem present_bytes (i : Instr) (data : List Byte) (s : State) : present i (.bytes data) s =
    if readsLanes i then .ok (s.presentData data) else .error .illFormedStatement := rfl

/-- The host presents the first ten bytes of a sequence only (R58, R139). -/
theorem presentData_append (s : State) {data : List Byte} (h : data.length = 10)
    (more : List Byte) : s.presentData (data ++ more) = s.presentData data := by
  have htake : (data ++ more).take byteLimit = data.take byteLimit :=
    List.take_append_of_le_length (Nat.le_of_eq h.symm)
  have hcount : presentedCount (data ++ more).length = presentedCount data.length := by
    simp [presentedCount, h]
  rw [State.presentData, State.presentData, htake, hcount]

/-- Settles O34: the decoder's outputs on two buses that agree on the lanes it reads, and the first ten bytes of a sequence. -/
theorem unreadLanesDoNotMatter : Obligations.UnreadLanesDoNotMatter := by
  constructor
  · intro i s s' t t' a a' b b' n o o' hi hd hd' h h'
    obtain rfl := h.out_eq hd
    obtain rfl := h'.out_eq hd'
    obtain ⟨hstatus, hcount⟩ := commandOut_get_status_count hi a b n
    rw [hstatus, hcount]
    exact ⟨fun hlanes => commandOut_get_congr hi (varintDecoder_congr hlanes).symm a' a,
      fun hok hlanes => commandOut_get_congr hi (varintDecoder_congr_of_ok hok hlanes).symm a' a⟩
  · intro i s data more hten
    rw [present_bytes, present_bytes, presentData_append s hten more]

/-- Settles O35: nine groups of seven bits leave one bit of the 64 to the tenth payload (`denoted_ten_congr`). -/
theorem tenthByteKeepsOneBit : Obligations.TenthByteKeepsOneBit := by
  intro s a b n hd hn hft
  have hnine : 9 < min n.toNat 10 := by omega
  have hout {bus : Bus} (h : FirstTerminal bus 9) : commandOut .getU64 a bus n =
      ⟨.ok, (denoted bus 10).setWidth 128, 0#80, 10#4⟩ :=
    commandOut_getU64_of_ok (varintDecoder_of_firstTerminal hnine h) a
  have hans := answersOnly_of_driven (i := .getU64) hd rfl
  rw [hout hft] at hans
  refine ⟨_, _, hans, rfl, rfl, ?_, fun b' hft' hlanes hbit => ?_⟩
  · rw [BitVec.getLsbD_setWidth, getLsbD_denoted_ten]
    rfl
  · rw [← denoted_ten_congr hlanes hbit, ← hout hft']
    exact ⟨_, answersOnly_of_driven ⟨rfl, rfl, rfl⟩ rfl⟩

/-! ## Truncated and over-long encodings -/

/-- Settles O39: every byte of an encoding but the last is continued. -/
theorem truncationDetected : Obligations.TruncationDetected := by
  intro s t s' a a' b b' n n' o hd h hd' havail hlanes
  obtain rfl := h.out_eq hd
  have hle := (isVarintLength_count_putU64 a b n).le
  have hall : AllContinued b' n'.toNat := fun k hk => by
    have hholds := varintEncoder_holds_len (a.extractLsb' 0 64)
    rw [hlanes k hk]
    exact (firstTerminal_of_holds hholds (isVarintLength_varintEncoder_len _).pos).before k
      (havail ▸ hk)
  have hmin : min n'.toNat 10 = n'.toNat := by omega
  have hdec : varintDecoder b' n' = ⟨.shortOfData, 0#64, n'⟩ :=
    varintDecoder_of_fewContinued (by omega) (by rwa [hmin])
  obtain ⟨hstatus, hcount⟩ := commandOut_get_status_count (Or.inl rfl) a' b' n'
  exact ⟨_, _, answersOnly_of_driven hd' rfl, by rw [hstatus, hdec], by rw [hcount, hdec]⟩

/-- Settles O40: the bytes after the groups of v have payload 0, and the last byte is the first terminal one. -/
theorem overlongEncodingsAccepted : Obligations.OverlongEncodingsAccepted := by
  intro s a b n v len long hd hlen hlong hten havail hgroups hpad hlast
  have hft : FirstTerminal b (long - 1) := by
    refine ⟨fun k hk => ?_, by rw [hlast]; rfl⟩
    by_cases hlow : k < len
    · rw [continuation_eq, hgroups k hlow]
      exact decide_eq_true (Nat.le_add_left _ _)
    · rw [hpad k (by omega) (by omega)]
      rfl
  have hzero : ∀ k, len ≤ k → k < long → payload (lane b k) = 0#7 := fun k hk hlt => by
    by_cases heq : k = long - 1
    · rw [heq, hlast]
      rfl
    · rw [hpad k hk (by omega)]
      rfl
  have hvalue : denoted b long = v := by
    rw [denoted_of_zero_above (Nat.le_of_lt hlong) hzero]
    refine denoted_of_groups hlen fun k hk => ?_
    rw [toNat_payload, hgroups k hk]
    omega
  have hdec := varintDecoder_of_firstTerminal (avail := n) (by omega) hft
  rw [Nat.sub_add_cancel (by omega), hvalue] at hdec
  refine ⟨_, _, answersOnly_of_driven hd rfl, ?_⟩
  rw [commandOut_getU64_of_ok hdec a]
  exact ⟨rfl, rfl, toNat_count hten⟩

end Sys2Proof.Machine
end

section
/-! PROOF. Who raises each status of `vz_core`, and what a reserved word does to a program that issues it (spec 60_exceptions.md R170 to R176). -/

namespace Sys2Proof.Machine

/-! ## Reserved words -/

/-- A reserved word is refused before its operand is looked at (R174, R176). -/
theorem issueCommand_reserved {w : CmdWord} {why : ReservedReason} (h : decode w = .reserved why)
    (operand : Operand) (s : State) :
    issueCommand (some w) operand s = .refused (.reservedCommand w why) := by
  simp only [issueCommand, h]

/-- Settles O11: the outputs by `vzCore_reserved`, the refusal by issuing the statement at the head of the program. -/
theorem reservedWordRefused : Obligations.ReservedWordRefused := by
  refine ⟨rfl, fun w why hres => ⟨vzCore_reserved hres, fun s operand rest hp => ?_⟩⟩
  calc step s = issueCommand (some w) operand (s.withProgram rest) := step_of_settled hp
    _ = .refused (.reservedCommand w why) := issueCommand_reserved hres operand _

/-! ## The commands that give OK -/

/-- Every command but the gets drives OK (R82, R173). -/
theorem commandOut_status_ok {i : Instr} (hu : i ≠ .getU64) (hi : i ≠ .getI64) (a : Wide) (b : Bus)
    (n : Count) : (commandOut i a b n).status = .ok := by
  cases i
  case getU64 => exact absurd rfl hu
  case getI64 => exact absurd rfl hi
  all_goals rfl

/-- Settles O18: what an answering command drove is `commandOut` on the operands it was given. -/
theorem putsAndZigzagsAlwaysOk : Obligations.PutsAndZigzagsAlwaysOk := by
  refine fun i hu hi => ⟨fun a b n => ?_, fun s t o h => ?_⟩
  · rw [vzCore_encode]
    exact commandOut_status_ok hu hi a b n
  · obtain ⟨a, b, n, -, hdriven, -, -⟩ := exec_next h.runs
    rw [h.out_eq hdriven]
    exact commandOut_status_ok hu hi a b n

/-! ## The three exceptional outcomes -/

theorem Status.code_injective : Function.Injective Status.code := by
  intro x y
  cases x <;> cases y <;> decide

/-- A decode error comes from the decoder through a get, and so does the count beside it (R171, R172). -/
theorem vzCore_error_from_get {w : CmdWord} {a : Wide} {b : Bus} {n : Count}
    (h : (vzCore w a b n).status = .shortOfData ∨ (vzCore w a b n).status = .overflow) :
    (decode w = .instr .getU64 ∨ decode w = .instr .getI64) ∧
      (vzCore w a b n).status = (varintDecoder b n).status ∧
      (vzCore w a b n).count = (varintDecoder b n).count := by
  cases hd : decode w with
  | reserved why => simp [vzCore_reserved hd, illegalOut] at h
  | instr i =>
    have hout : vzCore w a b n = commandOut i a b n := by simp only [vzCore, hd]
    rw [hout] at h ⊢
    have hget : i = .getU64 ∨ i = .getI64 := by
      by_contra hnot
      obtain ⟨hu, hi⟩ := not_or.mp hnot
      simp [commandOut_status_ok hu hi] at h
    exact ⟨hget.imp (congrArg _) (congrArg _), commandOut_get_status_count hget a b n⟩

/-- Short data is counted below the ten bytes of a whole varint (R138, R171). -/
theorem varintDecoder_short_count {b : Bus} {n : Count}
    (h : (varintDecoder b n).status = .shortOfData) : (varintDecoder b n).count.toNat ≤ 9 := by
  obtain ⟨hfew, hall⟩ := (varintDecoder_short_iff b n).mp h
  rw [varintDecoder_of_fewContinued hfew hall]
  change n.toNat ≤ 9
  omega

/-- An overflow has consumed ten bytes (R137, R172). -/
theorem varintDecoder_overflow_count {b : Bus} {n : Count}
    (h : (varintDecoder b n).status = .overflow) : (varintDecoder b n).count = 10#4 := by
  obtain ⟨hten, hall⟩ := (varintDecoder_overflow_iff b n).mp h
  rw [varintDecoder_of_tenContinued hten hall]

/-- Settles O17: the codes name the statuses; the errors come from the decoder through a get, ILLEGAL from a reserved word. -/
theorem exceptionalOutcomeCounts : Obligations.ExceptionalOutcomeCounts := by
  refine fun w a b n => ⟨fun h => ?short, fun h => ?overflow, fun h => ?illegal⟩
  case short =>
    have hshort : (vzCore w a b n).status = .shortOfData := Status.code_injective h
    obtain ⟨hget, hstatus, hcount⟩ := vzCore_error_from_get (.inl hshort)
    exact ⟨hget, hcount ▸ varintDecoder_short_count (hstatus ▸ hshort)⟩
  case overflow =>
    have hover : (vzCore w a b n).status = .overflow := Status.code_injective h
    obtain ⟨hget, hstatus, hcount⟩ := vzCore_error_from_get (.inr hover)
    refine ⟨hget, ?_⟩
    rw [hcount, varintDecoder_overflow_count (hstatus ▸ hover)]
    rfl
  case illegal =>
    obtain ⟨why, hres⟩ := (vzCore_illegal_iff w a b n).mp (Status.code_injective h)
    rw [vzCore_reserved hres]
    exact ⟨⟨why, hres⟩, rfl⟩

end Sys2Proof.Machine
end

section
/-! PROOF. After power-up nothing is driven, and a step with no statement, or with one not sampled settled, is refused (spec 70_reset_and_hazards.md R190 to R193). -/

namespace Sys2Proof.Machine

/-- Settles O1: each port, the buffer, its bound and the program are fields of the reset state. -/
theorem resetDrivesNothing : Obligations.ResetDrivesNothing :=
  ⟨rfl, rfl, rfl, rfl, rfl, rfl, rfl, rfl, rfl⟩

/-- An early sample is refused before the call is looked at (R193); `step_of_settled` is the other case. -/
theorem step_of_unsettled {s : State} {c : Call} {rest : List Statement}
    (hp : s.program = ⟨c, false⟩ :: rest) : step s = .refused .sampledUnsettled := by
  simp [step, issueNext, hp]

/-- An empty program leaves no operation to run (log entry 4). -/
theorem step_of_program_nil {s : State} (hp : s.program = []) : step s = .refused .noStatement := by
  simp only [step, issueNext, hp]

/-- Settles O14: the two refusals of a step that issues no call. -/
theorem unsettledSampleRefused : Obligations.UnsettledSampleRefused :=
  ⟨fun _ _ _ => step_of_unsettled, fun _ => step_of_program_nil⟩

end Sys2Proof.Machine
end
